-- ==== Sys2Proof/Word.lean ====
section
/-! DEFINITION. The word types of base85_encoder (spec 30_encoding.md R90): the 8-bit element of the
source, output and alphabet (R92, R94), and the 32-bit group value VAL (R93). The length type has
no fixed width: it is `BitVec w` with `w` the parameter LEN_W (00_scope.md R8). -/

namespace Sys2Proof

/-- One 8-bit element: a source byte (R92), a character code (R94) or a table entry (R64). -/
abbrev Byte := BitVec 8

/-- The 32-bit value of one group, the contents of `acc` (R24, R93). -/
abbrev Value := BitVec 32

end Sys2Proof
end

