-- ==== Sys2Proof/Config.lean ====
section
/-! DEFINITION. What is fixed when an instance is built (the open parameter LEN_W and its limits,
00_scope.md R8 to R10), the input pins of one step (10_state.md R40), and the one free value of the
model: what the environment drives in a step for which no line is written down (00_scope.md R7). -/

namespace Sys2Proof

/-- The input pins of one step, less the clock (10_state.md R40): one line of a trace (30_encoding.md
R105). `cmdLen` is the number HOST presents; the block has LEN_W pins for it and samples its low
LEN_W bits (70_reset_and_hazards.md R274; assumption 4). -/
structure Pins where
  rst : Bool
  cmdValid : Bool
  cmdLen : Nat
  inValid : Bool
  inData : Byte
  outReady : Bool
  stReady : Bool
deriving DecidableEq, Repr, Inhabited

/-- `MAX_REPRESENTABLE_LENGTH = 2^LEN_W - 1` (R8). -/
def Config.maxLength (w : Nat) : Nat := 2 ^ w - 1

/-- `LEN_LIMIT = floor(MAX_REPRESENTABLE_LENGTH / 5)` (R8). -/
def Config.lenLimit (w : Nat) : Nat := (2 ^ w - 1) / 5

/-- The default value of LEN_W (R8), the one `State.reset` has. -/
def Config.defaultLenW : Nat := 32

/-- FREE VALUE (assumption 3). What the environment drives in the `n`-th step for which the state holds
no written line: "in each step they choose the input pins freely (any values)" (R7). It has no body,
so nothing can be proved of a value of it. -/
opaque Config.freePins : Nat → Pins

end Sys2Proof
end

