-- ==== Sys2Proof/Syntax.lean ====
section
/-! DEFINITION. The ten operations of the block (30_encoding.md R100), its "instructions"
(00_scope.md R1), with their operands (R103); the five phases (10_state.md R21); and the word that
decides a step's operation (R90, format SEL) with the data pins it is sampled beside. -/

namespace Sys2Proof

/-- The five legal values of the `phase` register (R21). The reserved codes 5, 6, 7 are left out of
the type, as 30_encoding.md R104 asks of a model. -/
inductive Phase where
  | idle
  | assemble
  | convert
  | emit
  | report
deriving DecidableEq, Repr, Inhabited

/-- The ten operations, in the order of spec/opcode_table.json. The operands are the data pins the
operation reads (R103): ACCEPT reads `cmd_len`, SHIFTIN reads `in_data`, the others read none. -/
inductive Instr where
  /-- RESET (70_reset_and_hazards.md R260). -/
  | reset
  /-- ACCEPT (41_command.md R160): `cmdLen` is the source length on the `cmd_len` pins. -/
  | accept (cmdLen : Nat)
  /-- WAIT_CMD (41_command.md R166). -/
  | waitCmd
  /-- SHIFTIN (42_assemble.md R170): `inData` is the source byte on the `in_data` pins. -/
  | shiftin (inData : Byte)
  /-- WAIT_BYTE (42_assemble.md R172). -/
  | waitByte
  /-- DIVSTEP (43_convert.md R180). -/
  | divstep
  /-- EMIT (44_emit.md R190). -/
  | emit
  /-- WAIT_SINK (44_emit.md R192). -/
  | waitSink
  /-- REPORT (45_report.md R200). -/
  | report
  /-- WAIT_ACK (45_report.md R202). -/
  | waitAck
deriving DecidableEq, Repr, Inhabited

/-- The encoded form of one step's operation: the selector word SEL (R90, R100) and the two data words
CMD and SRCB that stand on the data pins in the same step. -/
structure InWord (w : Nat) where
  sel : BitVec 8
  cmdLen : BitVec w
  inData : Byte
deriving DecidableEq, Repr

end Sys2Proof
end

