-- ==== Sys2Proof/WellFormed.lean ====
section
/-! DEFINITION. Which operations can stand on the pins of an instance with LEN_W = `w`. The one check is
that a command length fits the LEN_W pins of `cmd_len`: "no `L` above `2^LEN_W - 1` can be presented
at all" (41_command.md R161). Every other operation and every `in_data` value is well formed
(30_encoding.md R91, R92, R104). -/

namespace Sys2Proof

/-- The operation can be presented to an instance with LEN_W = `w`. -/
def Instr.wf (w : Nat) : Instr → Bool
  | .reset => true
  | .accept cmdLen => decide (cmdLen < 2 ^ w)
  | .waitCmd => true
  | .shiftin _ => true
  | .waitByte => true
  | .divstep => true
  | .emit => true
  | .waitSink => true
  | .report => true
  | .waitAck => true

end Sys2Proof
end

