-- ==== Sys2Proof/Decode.lean ====
section
/-! DEFINITION. The operation map of 30_encoding.md R100: how the selector word is built from `phase` and
the pins, which operation it selects, and the encoder written from the same match column. The
decoder is total; the one thing it rejects, by name, is a selector with `rst = 0` and a reserved
phase code (R104). -/

namespace Sys2Proof

/-- The 3-bit code of a phase (10_state.md R21). -/
def Phase.code : Phase → BitVec 3
  | .idle => 0b000#3
  | .assemble => 0b001#3
  | .convert => 0b010#3
  | .emit => 0b011#3
  | .report => 0b100#3

/-- The phase with a given 3-bit code; none for the reserved codes 5, 6, 7 (R21, R104). -/
def Phase.ofCode (c : BitVec 3) : Option Phase :=
  [Phase.idle, .assemble, .convert, .emit, .report].find? (fun p => p.code == c)

/-- The selector word `sel = rst ++ phase[2:0] ++ cmd_valid ++ in_valid ++ out_ready ++ st_ready`
(R100). -/
def selector (ph : Phase) (p : Pins) : BitVec 8 :=
  BitVec.ofBool p.rst ++ ph.code ++ BitVec.ofBool p.cmdValid ++ BitVec.ofBool p.inValid
    ++ BitVec.ofBool p.outReady ++ BitVec.ofBool p.stReady

/-- What the block samples in one step: the selector word and the data pins. `cmd_len` has LEN_W pins,
so the low LEN_W bits of the number presented are seen (R274). -/
def sampleWord (w : Nat) (ph : Phase) (p : Pins) : InWord w :=
  { sel := selector ph p, cmdLen := BitVec.ofNat w p.cmdLen, inData := p.inData }

/-- The match column of R100. -/
def matchOf : Instr → BitVec 8
  | .reset => 0x80#8
  | .accept _ => 0x08#8
  | .waitCmd => 0x00#8
  | .shiftin _ => 0x14#8
  | .waitByte => 0x10#8
  | .divstep => 0x20#8
  | .emit => 0x32#8
  | .waitSink => 0x30#8
  | .report => 0x41#8
  | .waitAck => 0x40#8

/-- The mask column of R100. -/
def maskOf : Instr → BitVec 8
  | .reset => 0x80#8
  | .accept _ => 0xF8#8
  | .waitCmd => 0xF8#8
  | .shiftin _ => 0xF4#8
  | .waitByte => 0xF4#8
  | .divstep => 0xF0#8
  | .emit => 0xF2#8
  | .waitSink => 0xF2#8
  | .report => 0xF1#8
  | .waitAck => 0xF1#8

/-- "An operation is selected when `(sel AND mask) = match`" (R100). -/
def selects (sel : BitVec 8) (i : Instr) : Bool :=
  (sel &&& maskOf i) == matchOf i

/-- The ten rows of R100 over the data pins of a step: each operation with its operands filled in (R103). -/
def tableRows {w : Nat} (x : InWord w) : List Instr :=
  [.reset, .accept x.cmdLen.toNat, .waitCmd, .shiftin x.inData, .waitByte, .divstep, .emit,
    .waitSink, .report, .waitAck]

/-- What a selector word decodes to. -/
inductive DecodeResult where
  /-- The operation it selects. -/
  | instr (i : Instr)
  /-- Rejected: `rst = 0` and a reserved phase code (R104), selector values 0x50 to 0x7F. -/
  | reservedPhase (code : BitVec 3)
deriving DecidableEq, Repr

/-- The decoder: total on every selector word and all data pins (R101). -/
def decode {w : Nat} (x : InWord w) : DecodeResult :=
  match (tableRows x).find? (selects x.sel) with
  | some i => .instr i
  | none => .reservedPhase (x.sel.extractLsb' 4 3)

/-- The encoder: the match value of the operation's row, with its operand on the data pin it is read
from and 0 on a data pin it does not read (R103, R105). -/
def encode (w : Nat) (i : Instr) : InWord w :=
  match i with
  | .accept cmdLen => { sel := matchOf i, cmdLen := BitVec.ofNat w cmdLen, inData := 0#8 }
  | .shiftin inData => { sel := matchOf i, cmdLen := 0#w, inData := inData }
  | .reset | .waitCmd | .waitByte | .divstep | .emit | .waitSink | .report | .waitAck =>
    { sel := matchOf i, cmdLen := 0#w, inData := 0#8 }

/-- The operation this decoder reads from a word numbered as spec/opcode_table.json numbers it: the
table gives every row the 8 bits of the selector; the data pins above them are 0. -/
def decodeTableWord (nbits w : Nat) : Option Instr :=
  if nbits = 8 ∧ w < 256 then
    match decode (w := Config.defaultLenW)
        { sel := BitVec.ofNat 8 w, cmdLen := 0#Config.defaultLenW, inData := 0#8 } with
    | .instr i => some i
    | .reservedPhase _ => none
  else none

/-- The pins that give a selector word its bits 7 and 3 to 0, all data pins 0 (R100). -/
def Pins.ofSelector (sel : BitVec 8) : Pins :=
  { rst := sel.getLsbD 7, cmdValid := sel.getLsbD 3, cmdLen := 0, inValid := sel.getLsbD 2,
    inData := 0#8, outReady := sel.getLsbD 1, stReady := sel.getLsbD 0 }

/-- The phase that gives a selector word its bits 6 to 4, if there is one. -/
def Phase.ofSelector (sel : BitVec 8) : Option Phase :=
  Phase.ofCode (sel.extractLsb' 4 3)

end Sys2Proof
end

