-- ==== Sys2Proof/Machine/State.lean ====
section
/-! DEFINITION. The state of the block: the nine registers of 10_state.md R20, the instance's parameter
LEN_W, the event history of R44, and the environment's coming input lines. Plain data throughout. -/

namespace Sys2Proof.Machine

/-- The contents of `err` (10_state.md R27). Code 3 is reserved and never produced, so it is left out
of the type (30_encoding.md R104; 93_implementation_defined.md U5). -/
inductive ErrKind where
  | ok
  | tooLong
  | invalidLength
deriving DecidableEq, Repr, Inhabited

/-- The contents of `errparam` (10_state.md R28): 0, or the required chunk size 4. "No other value is
reachable", so no other is in the type (30_encoding.md R104; 93_implementation_defined.md U5). -/
inductive ErrParam where
  | zero
  | four
deriving DecidableEq, Repr, Inhabited

/-- The status words, "the only status words ENCODER ever sends" (30_encoding.md R95): the empty call, a
successful call with the length of its result, TooLong and InvalidLength. "The model's status type has
exactly the four values" (93_implementation_defined.md U5). -/
inductive Status where
  | empty
  | success (olen : Nat)
  | tooLong
  | invalidLength
deriving DecidableEq, Repr

/-- The observable events (10_state.md R44). Lengths are numbers. -/
inductive Event where
  | reset
  | cmd (len : Nat)
  | byte (b : Byte)
  | char (c : Byte)
  | status (word : Status)
deriving DecidableEq, Repr

/-- No behaviour of the block is a fault: "No behaviour of this block is treated as `fault`: nothing the
environment can present is illegal" (93_implementation_defined.md section 1). The two failure kinds
are ordinary next states (60_exceptions.md R230 to R233). So this type has no constructor: nobody
raises a fault, and a step that ends in one cannot be written. -/
inductive Fault
deriving DecidableEq, Repr

/-- Why a step can be refused. -/
inductive Refusal where
  /-- Raised by `exec` alone, for an operation that has no meaning yet. None is left in this model.
  Safe: the machine stops where the hardware goes on. -/
  | notModelled (mnemonic : String)
  /-- Raised by `step` for a selector with `rst = 0` and a reserved phase code, treatment `refuse` of
  93_implementation_defined.md U3. The five-valued `phase` makes it unreachable. Safe: the machine stops. -/
  | reservedPhase (code : BitVec 3)
  /-- Raised by REPORT when `err`, `errparam` and `olen` hold none of the status words of 30_encoding.md R95,
  treatment `refuse` of 93_implementation_defined.md U5: "Never produced; reserved for nothing."
  Unreachable from a reset (46_sequencing.md R216). Safe: the machine stops. -/
  | unproducedStatus (err : ErrKind) (errparam : ErrParam) (olen : Nat)
deriving DecidableEq, Repr

/-- The machine's state. -/
structure State where
  /-- LEN_W, the width of the length type (00_scope.md R8): fixed when the instance is built, written
  by no operation (R35); held here so that one machine covers every instance (assumption 1). -/
  lenW : Nat
  /-- Which stage of a call the block is in (R21). -/
  phase : Phase
  /-- The source length of the current call (R22). -/
  len : BitVec lenW
  /-- The number of source bytes consumed in the current call (R23). -/
  pos : BitVec lenW
  /-- The group value register (R24). -/
  acc : Value
  /-- The output position within the group, 0 to 4 (R25). -/
  slot : Fin 5
  /-- The group's character buffer (R26). -/
  obuf : Vector Byte 5
  /-- The failure kind of the current call (R27). -/
  err : ErrKind
  /-- The parameter of the failure kind (R28). -/
  errparam : ErrParam
  /-- The length of the encoded result of the current call (R29). -/
  olen : BitVec lenW
  /-- The event history, oldest first (R44): the model's bookkeeping, not hardware. -/
  events : List Event
  /-- The lines the environment will drive, the next step's first (R105): an input, not hardware. -/
  trace : List Pins
  /-- How many lines have been taken from the free environment after `trace` ran out (assumption 3). -/
  drawn : Nat
deriving DecidableEq, Repr

/-- The machine right after reset (10_state.md R45): `phase` IDLE, `slot` 4, every other register 0. The
history is empty and no input line is written down (assumptions 2 and 3); LEN_W is the default 32
(00_scope.md R8). -/
def State.reset : State :=
  { lenW := Config.defaultLenW
    phase := .idle
    len := 0#Config.defaultLenW
    pos := 0#Config.defaultLenW
    acc := 0#32
    slot := 4
    obuf := Vector.replicate 5 0x00#8
    err := .ok
    errparam := .zero
    olen := 0#Config.defaultLenW
    events := []
    trace := []
    drawn := 0 }

end Sys2Proof.Machine
end

