-- ==== Sys2Proof/Machine/Rom.lean ====
section
/-! DEFINITION. The index space ROM (20_memory.md R60, R64): the alphabet table of 30_encoding.md R97, 85
entries of 8 bits, constant in every instance (R77). -/

namespace Sys2Proof.Machine

/-- Rows 0 to 16 of R97: `0` to `9`, `a` to `g`. -/
def romRows0 : List Byte :=
  [0x30#8, 0x31#8, 0x32#8, 0x33#8, 0x34#8, 0x35#8, 0x36#8, 0x37#8, 0x38#8, 0x39#8, 0x61#8, 0x62#8,
    0x63#8, 0x64#8, 0x65#8, 0x66#8, 0x67#8]

/-- Rows 17 to 33 of R97: `h` to `x`. -/
def romRows17 : List Byte :=
  [0x68#8, 0x69#8, 0x6A#8, 0x6B#8, 0x6C#8, 0x6D#8, 0x6E#8, 0x6F#8, 0x70#8, 0x71#8, 0x72#8, 0x73#8,
    0x74#8, 0x75#8, 0x76#8, 0x77#8, 0x78#8]

/-- Rows 34 to 50 of R97: `y`, `z`, `A` to `O`. -/
def romRows34 : List Byte :=
  [0x79#8, 0x7A#8, 0x41#8, 0x42#8, 0x43#8, 0x44#8, 0x45#8, 0x46#8, 0x47#8, 0x48#8, 0x49#8, 0x4A#8,
    0x4B#8, 0x4C#8, 0x4D#8, 0x4E#8, 0x4F#8]

/-- Rows 51 to 67 of R97: `P` to `Z`, then the full stop to the circumflex. -/
def romRows51 : List Byte :=
  [0x50#8, 0x51#8, 0x52#8, 0x53#8, 0x54#8, 0x55#8, 0x56#8, 0x57#8, 0x58#8, 0x59#8, 0x5A#8, 0x2E#8,
    0x2D#8, 0x3A#8, 0x2B#8, 0x3D#8, 0x5E#8]

/-- Rows 68 to 84 of R97: the exclamation mark to the number sign. -/
def romRows68 : List Byte :=
  [0x21#8, 0x2F#8, 0x2A#8, 0x3F#8, 0x26#8, 0x3C#8, 0x3E#8, 0x28#8, 0x29#8, 0x5B#8, 0x5D#8, 0x7B#8,
    0x7D#8, 0x40#8, 0x25#8, 0x24#8, 0x23#8]

/-- The alphabet table `ALPHA` in index order (R97). -/
def romTable : List Byte := romRows0 ++ romRows17 ++ romRows34 ++ romRows51 ++ romRows68

/-- The table has exactly 85 entries (R64, R97). -/
theorem romTable_length : romTable.length = 85 := rfl

/-- `MemRead(ROM, d, 1) = ALPHA[d]` for a digit `d` in 0..84 (R64): total, no entry for any other index. -/
def alpha (d : Fin 85) : Byte := romTable[d.val]'(by rw [romTable_length]; exact d.isLt)

/-- The character is one of the 85 of the alphabet (R94, R140). -/
abbrev InAlphabet (c : Byte) : Prop := c ∈ romTable

end Sys2Proof.Machine
end

