-- ==== Sys2Proof/Machine/Operands.lean ====
section
/-! DEFINITION. The operand computations of the operations: the assembly of a group's value
(30_encoding.md R93, 42_assemble.md R170), the digit and quotient of one division by 85 (43_convert.md
R180), the walk of `slot` (10_state.md R25), and the length arithmetic (40_transform.md R145, R150). -/

namespace Sys2Proof.Machine

/-- `acc[23:0] ++ b`: shift left by 8, new byte in bits 7:0, old bits 31:24 dropped (R170, R171). -/
def shiftByte (acc : Value) (b : Byte) : Value := acc.extractLsb' 0 24 ++ b

/-- `b0 ++ b1 ++ b2 ++ b3`, the big-endian value of a group (R66, R93). -/
def groupWord (b0 b1 b2 b3 : Byte) : Value := b0 ++ b1 ++ b2 ++ b3

/-- `d = acc mod 85`, a digit 0..84 (R180). -/
def digitOf (acc : Value) : Fin 85 := ⟨acc.toNat % 85, Nat.mod_lt _ (by decide)⟩

/-- `q = acc div 85` (R180, R146). -/
def quotientOf (acc : Value) : Value := BitVec.ofNat 32 (acc.toNat / 85)

/-- The output position after `k` in DIVSTEP's walk "from the last of the 5 slots backward to the first";
none after position 0 (R25, R180). -/
def slotBefore (k : Fin 5) : Option (Fin 5) :=
  if h : k.val = 0 then none else some ⟨k.val - 1, by omega⟩

/-- The output position after `k` in EMIT's walk from position 0 up; none after position 4 (R25, R190). -/
def slotAfter (k : Fin 5) : Option (Fin 5) :=
  if h : k.val = 4 then none else some ⟨k.val + 1, by omega⟩

/-- `x[1:0] == 0` of a length-typed value (R162, R170): a multiple of 4 (R145, R150). -/
def isGroupAligned {w : Nat} (x : BitVec w) : Bool := x.toNat % 4 == 0

/-- `L + L[LEN_W-1:2]`, the length of the encoded result, computed in LEN_W bits (R163). -/
def resultLength {w : Nat} (l : BitVec w) : BitVec w := l + (l >>> 2)

end Sys2Proof.Machine
end

