-- ==== Sys2Proof/Machine/Flags.lean ====
section
/-! DEFINITION. The block's only flags are `err` and `errparam` (10_state.md R32): the outcome of the
length checks (41_command.md R161, R162), the codes of the failure kinds on the pins (30_encoding.md
R95), and the status words. No arithmetic operation sets a flag. -/

namespace Sys2Proof.Machine

/-- The two length checks in order, "first failure wins" (R160, R236): TooLong when `L > LEN_LIMIT`
(R161), else InvalidLength when `L[1:0] != 0` (R162). -/
def lengthCheck {w : Nat} (l : BitVec w) : ErrKind :=
  if l.toNat > Config.lenLimit w then .tooLong
  else if isGroupAligned l then .ok
  else .invalidLength

/-- `st_code`: 0 = OK, 1 = TooLong, 2 = InvalidLength (R27, R95). -/
def ErrKind.code : ErrKind → BitVec 2
  | .ok => 0#2
  | .tooLong => 1#2
  | .invalidLength => 2#2

/-- The parameter a failure kind carries: the chunk size 4 with InvalidLength, else 0 (R28, R95). -/
def ErrKind.param : ErrKind → ErrParam
  | .ok => .zero
  | .tooLong => .zero
  | .invalidLength => .four

/-- `st_param`: the number in `errparam` (R28, R95). -/
def ErrParam.code : ErrParam → BitVec 3
  | .zero => 0#3
  | .four => 4#3

/-- The field `st_code` of each of the four status words (R95). -/
def Status.code : Status → BitVec 2
  | .empty => 0#2
  | .success _ => 0#2
  | .tooLong => 1#2
  | .invalidLength => 2#2

/-- The field `st_param` of each of the four status words (R95). -/
def Status.param : Status → BitVec 3
  | .empty => 0#3
  | .success _ => 0#3
  | .tooLong => 0#3
  | .invalidLength => 4#3

/-- The field `st_olen` of each of the four status words (R95). -/
def Status.olen : Status → Nat
  | .empty => 0
  | .success olen => olen
  | .tooLong => 0
  | .invalidLength => 0

/-- The status word of a call without a failure whose result has `n` characters: `(0, 0, 0)` or
`(0, 0, L + L/4)` (R95). -/
def Status.ofLength (n : Nat) : Status := if n = 0 then .empty else .success n

/-- `n = L + L/4` for a length `L` that passes both checks at LEN_W = `w`. Such an `L` is a multiple of 4, so
`n` is five quarters of it (R163, 40_transform.md R150). -/
def isResultLength (w n : Nat) : Bool := n % 5 == 0 && decide (n / 5 * 4 ≤ Config.lenLimit w)

/-- Which of the four status words of R95 the three registers hold, if any. -/
def statusOf {w : Nat} (err : ErrKind) (errparam : ErrParam) (olen : BitVec w) : Option Status :=
  match err, errparam with
  | .ok, .zero => if isResultLength w olen.toNat then some (Status.ofLength olen.toNat) else none
  | .tooLong, .zero => if olen.toNat = 0 then some .tooLong else none
  | .invalidLength, .four => if olen.toNat = 0 then some .invalidLength else none
  | .ok, .four | .tooLong, .four | .invalidLength, .zero => none

/-- The status word STAT: `st_code[1:0]`, `st_param[2:0]`, `st_olen[LEN_W-1:0]`, most significant first
(R90, R95). -/
def packStatus {w : Nat} (code : BitVec 2) (param : BitVec 3) (olen : BitVec w) : BitVec (2 + 3 + w) :=
  code ++ param ++ olen

end Sys2Proof.Machine
end

