-- ==== Sys2Proof/Machine/Ops.lean ====
section
/-! DEFINITION. The operations over the state that the meanings share: sampling and advancing the
environment's lines, recording an event (10_state.md R44), raising a failure and returning from it
(60_exceptions.md R233, R237, R238), the reset values (10_state.md R45), and the output pins (R42). -/

namespace Sys2Proof.Machine

/-- The input pins of the coming step: the next written line, or, when none is left, a line the
environment chooses freely (00_scope.md R7; assumption 3). -/
def State.line (s : State) : Pins :=
  match s.trace with
  | p :: _ => p
  | [] => Config.freePins s.drawn

/-- The state in which the coming step's operation is performed: its line has been used up. No register
changes. -/
def State.advance (s : State) : State :=
  { s with
    trace := s.trace.tail
    drawn := if s.trace.isEmpty then s.drawn + 1 else s.drawn }

/-- The selector word and the data pins of the coming step (30_encoding.md R100). -/
def State.inWord (s : State) : InWord s.lenW := sampleWord s.lenW s.phase s.line

/-- Record one event (R44). -/
def State.record (s : State) (e : Event) : State := { s with events := s.events ++ [e] }

/-- `raise k(param)`: `err <- k ; errparam <- param ; olen <- 0 ; phase <- REPORT` (R233). Nothing else
is saved; control goes to the fixed phase REPORT, where HOST is the handler (R237). -/
def State.raise (s : State) (k : ErrKind) (param : ErrParam) : State :=
  { s with err := k, errparam := param, olen := 0#s.lenW, phase := .report }

/-- The status word in `err`, `errparam` and `olen`; none when they hold none of the four words of
30_encoding.md R95. -/
def State.status? (s : State) : Option Status := statusOf s.err s.errparam s.olen

/-- The return, from the failure path and from a successful call alike: the status word goes to HOST and
`phase <- IDLE`; nothing is restored (R200, R238). -/
def State.handOverStatus (s : State) (word : Status) : State :=
  { s.record (.status word) with phase := .idle }

/-- Every register at its reset value (R45, R260). -/
def State.resetRegisters (s : State) : State :=
  { s with
    phase := .idle, len := 0#s.lenW, pos := 0#s.lenW, acc := 0#32, slot := 4,
    obuf := Vector.replicate 5 0x00#8, err := .ok, errparam := .zero, olen := 0#s.lenW }

/-- The first writes of ACCEPT, made on every path: `len <- L ; pos <- 0 ; acc <- 0 ; slot <- 4` (R160). -/
def State.latchLength (s : State) (l : BitVec s.lenW) : State :=
  { s with len := l, pos := 0#s.lenW, acc := 0#32, slot := 4 }

/-- The output pins (10_state.md R40, R42). A data output that is not meaningful, because its valid is 0,
is not exposed: it is `none` (R43; 93_implementation_defined.md U1). -/
structure OutPins where
  cmdReady : Bool
  inReady : Bool
  outValid : Bool
  outData : Option Byte
  stValid : Bool
  stCode : Option (BitVec 2)
  stParam : Option (BitVec 3)
  stOlen : Option Nat
deriving DecidableEq, Repr

/-- The outputs, functions of the registers alone (R42). -/
def State.outputs (s : State) : OutPins :=
  { cmdReady := s.phase == .idle
    inReady := s.phase == .assemble
    outValid := s.phase == .emit
    outData := if s.phase = .emit then some s.obuf[s.slot] else none
    stValid := s.phase == .report
    stCode := if s.phase = .report then some s.err.code else none
    stParam := if s.phase = .report then some s.errparam.code else none
    stOlen := if s.phase = .report then some s.olen.toNat else none }

/-- The status word on offer in phase REPORT (30_encoding.md R90, R95). -/
def State.statusWord (s : State) : BitVec (2 + 3 + s.lenW) :=
  packStatus s.err.code s.errparam.code s.olen

end Sys2Proof.Machine
end

