-- ==== Sys2Proof/Machine/Assemble.lean ====
section
/-! DEFINITION. Stage S1 ASSEMBLE: the meanings of SHIFTIN and WAIT_BYTE (42_assemble.md). -/

namespace Sys2Proof.Machine

/-- SHIFTIN (R170): shift the source byte into `acc`, count it in `pos`, and after the fourth byte of the
group go to CONVERT with `slot <- 4`. Event `Byte(b)`. -/
def execShiftin (b : Byte) (s : State) : Host.Outcome State Fault Refusal :=
  let pos' := s.pos + 1#s.lenW
  let t := { s with acc := shiftByte s.acc b, pos := pos', events := s.events ++ [.byte b] }
  if isGroupAligned pos' then .next { t with phase := .convert, slot := 4 } else .next t

/-- WAIT_BYTE (R172): no source byte offered; every register keeps its value, no event. -/
def execWaitByte (s : State) : Host.Outcome State Fault Refusal := .next s

end Sys2Proof.Machine
end

