-- ==== Sys2Proof/Machine/Convert.lean ====
section
/-! DEFINITION. Stage S2 CONVERT: the meaning of DIVSTEP (43_convert.md). -/

namespace Sys2Proof.Machine

/-- DIVSTEP (R180): one division of `acc` by 85, the remainder's character into `obuf[slot]`, the quotient
into `acc`; then the next lower slot, or, from slot 0, on to EMIT with `slot` left at 0. No event. -/
def execDivstep (s : State) : Host.Outcome State Fault Refusal :=
  let t := { s with obuf := s.obuf.set s.slot (alpha (digitOf s.acc)), acc := quotientOf s.acc }
  match slotBefore s.slot with
  | some k => .next { t with slot := k }
  | none => .next { t with phase := .emit }

end Sys2Proof.Machine
end

