-- ==== Sys2Proof/Machine/Emit.lean ====
section
/-! DEFINITION. Stage S3 EMIT: the meanings of EMIT and WAIT_SINK (44_emit.md). -/

namespace Sys2Proof.Machine

/-- EMIT (R190): send `obuf[slot]` and go on to the next slot; from slot 4 go to REPORT when the source is
exhausted (`pos == len`, R191), else to ASSEMBLE for the next group. Event `Char(c)`. -/
def execEmit (s : State) : Host.Outcome State Fault Refusal :=
  let t := s.record (.char s.obuf[s.slot])
  match slotAfter s.slot with
  | some k => .next { t with slot := k }
  | none => .next { t with phase := if s.pos = s.len then .report else .assemble }

/-- WAIT_SINK (R192): SINK is not ready; every register keeps its value, no event. -/
def execWaitSink (s : State) : Host.Outcome State Fault Refusal := .next s

end Sys2Proof.Machine
end

