-- ==== Sys2Proof/Machine/Report.lean ====
section
/-! DEFINITION. Stage S4 REPORT: the meanings of REPORT and WAIT_ACK (45_report.md). -/

namespace Sys2Proof.Machine

/-- REPORT (R200): hand over the status word and end the call. Event `Status(err, errparam, olen)`. Registers that
hold none of the four words of 30_encoding.md R95 are refused, as 93_implementation_defined.md U5 asks:
they never do after a reset. -/
def execReport (s : State) : Host.Outcome State Fault Refusal :=
  match s.status? with
  | some word => .next (s.handOverStatus word)
  | none => .refused (.unproducedStatus s.err s.errparam s.olen.toNat)

/-- WAIT_ACK (R202): HOST is not ready for the status; every register keeps its value, no event. -/
def execWaitAck (s : State) : Host.Outcome State Fault Refusal := .next s

end Sys2Proof.Machine
end

