-- ==== Sys2Proof/Machine/Reset.lean ====
section
/-! DEFINITION. The meaning of RESET (70_reset_and_hazards.md R260 to R262). -/

namespace Sys2Proof.Machine

/-- RESET (R260): every register to its reset value, event `Reset`. It reads no register (R261). -/
def execReset (s : State) : Host.Outcome State Fault Refusal :=
  .next (s.resetRegisters.record .reset)

end Sys2Proof.Machine
end

