-- ==== Sys2Proof/Machine/Validate.lean ====
section
/-! DEFINITION. Stage S0 VALIDATE: the meanings of ACCEPT and WAIT_CMD (41_command.md). -/

namespace Sys2Proof.Machine

/-- ACCEPT (R160): latch the length, make the two checks in order, and start the pipeline, or go to the
status at once on a failure (R164) or an empty source (R165). Event `Cmd(L)`. -/
def execAccept (cmdLen : Nat) (s : State) : Host.Outcome State Fault Refusal :=
  let l := BitVec.ofNat s.lenW cmdLen
  let t := (s.latchLength l).record (.cmd l.toNat)
  match lengthCheck l with
  | .tooLong => .next (t.raise .tooLong .zero)
  | .invalidLength => .next (t.raise .invalidLength .four)
  | .ok =>
    if l.toNat = 0 then
      .next { t with err := .ok, errparam := .zero, olen := 0#s.lenW, phase := .report }
    else
      .next { t with err := .ok, errparam := .zero, olen := resultLength l, phase := .assemble }

/-- WAIT_CMD (R166): no command offered; every register keeps its value, no event. -/
def execWaitCmd (s : State) : Host.Outcome State Fault Refusal := .next s

end Sys2Proof.Machine
end

