-- ==== Sys2Proof/Machine/Dispatch.lean ====
section
/-! DEFINITION. One arm per operation of 30_encoding.md R100. -/

namespace Sys2Proof.Machine

def exec (i : Instr) (s : State) : Host.Outcome State Fault Refusal :=
  match i with
  | .reset => Sys2Proof.Machine.execReset s
  | .accept cmdLen => Sys2Proof.Machine.execAccept cmdLen s
  | .waitCmd => Sys2Proof.Machine.execWaitCmd s
  | .shiftin inData => Sys2Proof.Machine.execShiftin inData s
  | .waitByte => Sys2Proof.Machine.execWaitByte s
  | .divstep => Sys2Proof.Machine.execDivstep s
  | .emit => Sys2Proof.Machine.execEmit s
  | .waitSink => Sys2Proof.Machine.execWaitSink s
  | .report => Sys2Proof.Machine.execReport s
  | .waitAck => Sys2Proof.Machine.execWaitAck s

end Sys2Proof.Machine
end

