-- ==== Sys2Proof/Machine/Step.lean ====
section
/-! DEFINITION. One step (00_scope.md R12): sample the pins, build the selector word, perform the one
operation it selects (30_encoding.md R100). The block fetches no instruction; what stands in its place
is the environment's next line together with the `phase` register. -/

namespace Sys2Proof.Machine

/-- One rising clock edge (R281): the operation selected by `phase` and the coming line, performed on the
state whose line has been used up. -/
def step (s : State) : Host.Outcome State Fault Refusal :=
  match decode s.inWord with
  | .instr i => exec i s.advance
  | .reservedPhase code => .refused (.reservedPhase code)

/-- The state whose very next step has the selector word `w` (the table gives every row `nbits = 8` bits):
its bits 6 to 4 select through `phase`, its other bits stand on the next line, with all data pins 0.
A selector with a reserved phase code leaves `phase` as it is, since the register cannot hold the
code (assumption 5). -/
def State.withFetchWord (s : State) (nbits w : Nat) : State :=
  let sel := BitVec.ofNat 8 (w % 2 ^ nbits)
  { s with
    phase := (Phase.ofSelector sel).getD s.phase
    trace := Pins.ofSelector sel :: s.trace.tail }

end Sys2Proof.Machine
end

