-- ==== Sys2Proof/Machine/Trace.lean ====
section
/-! DEFINITION. The trace notation, the block's "assembly" (30_encoding.md R105, R106): a program is a
list of lines, one per step, saying what the environment drives. -/

namespace Sys2Proof.Machine

/-- `NOP`: nothing driven (R105). -/
def lineNop : Pins :=
  { rst := false, cmdValid := false, cmdLen := 0, inValid := false, inData := 0x00#8,
    outReady := false, stReady := false }

/-- `RST`: rst = 1 (R105). -/
def lineRst : Pins := { lineNop with rst := true }

/-- `CMD n`: cmd_valid = 1, cmd_len = n (R105). -/
def lineCmd (n : Nat) : Pins := { lineNop with cmdValid := true, cmdLen := n }

/-- `BYTE h`: in_valid = 1, in_data = h (R105). -/
def lineByte (h : Byte) : Pins := { lineNop with inValid := true, inData := h }

/-- `TAKE`: out_ready = 1 (R105). -/
def lineTake : Pins := { lineNop with outReady := true }

/-- `ACK`: st_ready = 1 (R105). -/
def lineAck : Pins := { lineNop with stReady := true }

/-- Several atoms joined by `+` on one line (R105). -/
def Pins.join (p q : Pins) : Pins :=
  { rst := p.rst || q.rst
    cmdValid := p.cmdValid || q.cmdValid
    cmdLen := if q.cmdValid then q.cmdLen else p.cmdLen
    inValid := p.inValid || q.inValid
    inData := if q.inValid then q.inData else p.inData
    outReady := p.outReady || q.outReady
    stReady := p.stReady || q.stReady }

/-- `WAIT n` (R106). -/
def traceWait (n : Nat) : List Pins := List.replicate n lineNop

/-- `GROUP b0 b1 b2 b3`: four BYTE lines, five NOP lines, five TAKE lines (R106). -/
def traceGroup (b0 b1 b2 b3 : Byte) : List Pins :=
  [lineByte b0, lineByte b1, lineByte b2, lineByte b3] ++ List.replicate 5 lineNop
    ++ List.replicate 5 lineTake

/-- `GROUP` for each four bytes in order (R106). -/
def traceGroups : List Byte → List Pins
  | b0 :: b1 :: b2 :: b3 :: rest => traceGroup b0 b1 b2 b3 ++ traceGroups rest
  | [] | [_] | [_, _] | [_, _, _] => []

/-- `ENCODE b0 .. b(L-1)`: CMD L, the groups, ACK (R106). -/
def traceEncode (source : List Byte) : List Pins :=
  lineCmd source.length :: (traceGroups source ++ [lineAck])

/-- `ENCODE_BAD L`: CMD L, ACK (R106). -/
def traceEncodeBad (l : Nat) : List Pins := [lineCmd l, lineAck]

/-- The line of the greedy environment that offers `next`, the next byte not yet taken, if one remains:
`TAKE + ACK`, with `BYTE` (R106). -/
def lineGreedy (next : Option Byte) : Pins :=
  match next with
  | some b => Pins.join (lineByte b) (Pins.join lineTake lineAck)
  | none => Pins.join lineTake lineAck

/-- The 14 lines of the greedy environment over each group: its four bytes, then ten lines that offer
the byte after them (R106). -/
def greedyGroups : List Byte → List Pins
  | b0 :: b1 :: b2 :: b3 :: rest =>
    [lineGreedy (some b0), lineGreedy (some b1), lineGreedy (some b2), lineGreedy (some b3)]
      ++ List.replicate 10 (lineGreedy rest.head?) ++ greedyGroups rest
  | [] | [_] | [_, _] | [_, _, _] => []

/-- `GREEDY b0 .. b(L-1)`: the command on every line until taken, then the groups, then `TAKE + ACK`
(R106). -/
def traceGreedy (source : List Byte) : List Pins :=
  Pins.join (lineCmd source.length) (lineGreedy source.head?)
    :: (greedyGroups source ++ [lineGreedy none])

end Sys2Proof.Machine
end

