-- ==== Sys2Proof/Machine/Transform.lean ====
section
/-! DEFINITION. The transform as a pure function (40_transform.md): what one call of the block must
compute. It uses no state of the machine; it is stated in natural numbers, as the spec states it, and
the machine is held against it in the statements. -/

namespace Sys2Proof.Machine

/-- `val(b0, b1, b2, b3) = b0*2^24 + b1*2^16 + b2*2^8 + b3` (R134). -/
def groupVal (b0 b1 b2 b3 : Byte) : Nat :=
  b0.toNat * 2 ^ 24 + b1.toNat * 2 ^ 16 + b2.toNat * 2 ^ 8 + b3.toNat

/-- `ALPHA[v mod 85]`. -/
def lastDigitChar (v : Nat) : Byte := alpha ⟨v % 85, Nat.mod_lt _ (by decide)⟩

/-- The digit loop of R135, positions from the last one down to the first: `n` iterations still to be
made, running value `value`, characters already placed `out` (the later positions). -/
def digitLoop : (n : Nat) → (value : Nat) → (out : List Byte) → List Byte
  | 0, _, out => out
  | n + 1, value, out => digitLoop n (value / 85) (lastDigitChar value :: out)

/-- The running value after `k` iterations of the digit loop (R136). -/
def runningValue : (k : Nat) → (value : Nat) → Nat
  | 0, value => value
  | k + 1, value => runningValue k (value / 85)

/-- `enc_group(b0, b1, b2, b3)`: the loop of R135, five iterations, on the group's value (R137). -/
def encGroup (b0 b1 b2 b3 : Byte) : List Byte := digitLoop 5 (groupVal b0 b1 b2 b3) []

/-- The digit `d_i` of a value: the one of weight `85^(4-i)` (30_encoding.md R96). -/
def digitAt (v : Nat) (i : Fin 5) : Fin 85 := ⟨v / 85 ^ (4 - i.val) % 85, Nat.mod_lt _ (by decide)⟩

/-- The groups of a source from left to right, their characters concatenated in source order (R138). -/
def encGroups : List Byte → List Byte
  | b0 :: b1 :: b2 :: b3 :: rest => encGroup b0 b1 b2 b3 ++ encGroups rest
  | [] | [_] | [_, _] | [_, _, _] => []

/-- The result of `encode` (R130): a string, or one of the two failures; InvalidLength carries the
required chunk size as a number. -/
inductive EncodeResult where
  | ok (chars : List Byte)
  | tooLong
  | invalidLength (chunk : Nat)
deriving DecidableEq, Repr

/-- HV's `encode(source)` at LEN_W = `w`: the checks in order (R131, R132), the empty source (R133), the
concatenation of the groups (R138). -/
def encodeBytes (w : Nat) (source : List Byte) : EncodeResult :=
  if source.length > Config.lenLimit w then .tooLong
  else if source.length % 4 ≠ 0 then .invalidLength 4
  else if source.length = 0 then .ok []
  else .ok (encGroups source)

end Sys2Proof.Machine
end

