-- ==== Sys2Proof/Safety.lean ====
section
/-! DEFINITION. The terms in which claims about runs are made: the events of the current call (10_state.md
R44), the invariants of 46_sequencing.md R215 to R220, and the measure of the work a call still has to do
(R212, R213). -/

namespace Sys2Proof.Machine

/-- The events of the current call grow by one: a command starts a new call, a reset drops the call. -/
def tailStep (tail : List Event) : Event → List Event
  | .cmd _ => []
  | .reset => []
  | .byte b => tail ++ [.byte b]
  | .char c => tail ++ [.char c]
  | .status word => tail ++ [.status word]

/-- The events since the last `Cmd` or `Reset`. -/
def callTail (events : List Event) : List Event := events.foldl tailStep []

/-- The length in the last `Cmd` since the last `Reset`. -/
def lastCmd (events : List Event) : Option Nat :=
  events.foldl (fun last e => match e with
    | .cmd len => some len
    | .reset => none
    | .byte _ | .char _ | .status _ => last) none

/-- A call is running: a `Cmd` has happened and no `Status` or `Reset` since (R201, R213). -/
def callOpen (events : List Event) : Bool :=
  events.foldl (fun isOpen e => match e with
    | .cmd _ => true
    | .reset | .status _ => false
    | .byte _ | .char _ => isOpen) false

/-- The byte of a `Byte` event. -/
def Event.byte? : Event → Option Byte
  | .byte b => some b
  | .reset | .cmd _ | .char _ | .status _ => none

/-- The character of a `Char` event. -/
def Event.char? : Event → Option Byte
  | .char c => some c
  | .reset | .cmd _ | .byte _ | .status _ => none

/-- The event is a `Reset` or a `Status`: it ends a call (R200, R224). -/
def Event.endsCall : Event → Bool
  | .reset | .status _ => true
  | .cmd _ | .byte _ | .char _ => false

/-- The source bytes of a list of events, in order (R44). -/
def bytesOf (events : List Event) : List Byte := events.filterMap Event.byte?

/-- The characters of a list of events, in order (R44). -/
def charsOf (events : List Event) : List Byte := events.filterMap Event.char?

/-- The source bytes of the current call: SRC elements 0, 1, .. as far as they have been read (20_memory.md R60,
R62: element `p` is the `(p+1)`-th byte transferred after the call's ACCEPT). -/
def callBytes (events : List Event) : List Byte := bytesOf (callTail events)

/-- The characters of the current call: DST elements 0, 1, .. as far as they have been written (20_memory.md R60,
R63: the `(k+1)`-th output transfer after the call's ACCEPT is the write of element `k`). -/
def callChars (events : List Event) : List Byte := charsOf (callTail events)

/-- The events of whole groups in the order of 20_memory.md R73: "the four `Byte` events of group `g`
followed by the five `Char` events of group `g`". -/
def groupEvents : List Byte → List Event
  | b0 :: b1 :: b2 :: b3 :: rest =>
    [.byte b0, .byte b1, .byte b2, .byte b3] ++ (encGroup b0 b1 b2 b3).map .char ++ groupEvents rest
  | [] | [_] | [_, _] | [_, _, _] => []

/-- The big-endian value of some bytes (R66, R217). -/
def bytesVal (bytes : List Byte) : Nat := bytes.foldl (fun v b => v * 256 + b.toNat) 0

/-- The invariants on the registers alone (46_sequencing.md R216 to R218, and of R219 what R221 needs). -/
structure RegInv (s : State) : Prop where
  /-- LEN_W is an integer >= 1 (R8). -/
  width : 1 ≤ s.lenW
  /-- The parameter belongs to the failure kind (R28, R95). -/
  flags : s.errparam = s.err.param
  /-- R216, phases ASSEMBLE, CONVERT and EMIT. -/
  busy : s.phase = .assemble ∨ s.phase = .convert ∨ s.phase = .emit →
    s.err = .ok ∧ 0 < s.len.toNat ∧ s.len.toNat % 4 = 0 ∧ s.len.toNat ≤ Config.lenLimit s.lenW ∧
      s.olen.toNat = s.len.toNat + s.len.toNat / 4 ∧ s.pos.toNat ≤ s.len.toNat
  /-- R216: "in ASSEMBLE moreover `pos < len`". -/
  assembling : s.phase = .assemble → s.pos.toNat < s.len.toNat
  /-- R216: "in CONVERT and EMIT moreover `pos mod 4 = 0` and `pos >= 4`". -/
  wholeGroups : s.phase = .convert ∨ s.phase = .emit → s.pos.toNat % 4 = 0 ∧ 4 ≤ s.pos.toNat
  /-- R216, phase REPORT without a failure. -/
  success : s.phase = .report → s.err = .ok →
    s.pos.toNat = s.len.toNat ∧ s.len.toNat % 4 = 0 ∧ s.len.toNat ≤ Config.lenLimit s.lenW ∧
      s.olen.toNat = s.len.toNat + s.len.toNat / 4
  /-- R216, phase REPORT with a failure. -/
  failure : s.phase = .report → s.err ≠ .ok → s.pos.toNat = 0 ∧ s.olen.toNat = 0
  /-- R217: "in IDLE, EMIT and REPORT `acc = 0`". -/
  accClear : s.phase = .idle ∨ s.phase = .emit ∨ s.phase = .report → s.acc = 0#32
  /-- R217: "in ASSEMBLE `acc < 2^(8*(pos mod 4))`". -/
  accPartial : s.phase = .assemble → s.acc.toNat < 2 ^ (8 * (s.pos.toNat % 4))
  /-- R217 in CONVERT, for some 32-bit value `v`: `acc = v div 85^(4 - slot)` is at most this. -/
  accRunning : s.phase = .convert → s.acc.toNat ≤ (2 ^ 32 - 1) / 85 ^ (4 - s.slot.val)
  /-- R218: "in IDLE, ASSEMBLE and REPORT `slot = 4`". -/
  slotHome : s.phase = .idle ∨ s.phase = .assemble ∨ s.phase = .report → s.slot = 4
  /-- R219 in CONVERT: the entries above `slot` hold characters of the alphabet. -/
  placed : s.phase = .convert → ∀ i : Fin 5, s.slot < i → InAlphabet s.obuf[i]
  /-- R219 in EMIT: every entry holds a character of the alphabet. -/
  filled : s.phase = .emit → ∀ i : Fin 5, InAlphabet s.obuf[i]

/-- The source bytes of the current call before the group in hand: all but the last `pos mod 4` in
ASSEMBLE, all but the last 4 in CONVERT and EMIT. -/
def State.groupStart (s : State) : Nat :=
  match s.phase with
  | .assemble => 4 * (s.pos.toNat / 4)
  | .convert | .emit => s.pos.toNat - 4
  | .idle | .report => s.pos.toNat

/-- The bytes of the current call that belong to the group in hand. -/
def State.groupBytes (s : State) : List Byte := (callBytes s.events).drop s.groupStart

/-- The events the current call must have had so far, given the bytes it took (R73, R220): the whole groups
before the one in hand, the bytes of the group in hand, and in EMIT its first `slot` characters. -/
def State.expectedTail (s : State) : List Event :=
  groupEvents ((callBytes s.events).take s.groupStart) ++ s.groupBytes.map .byte ++
    (if s.phase = .emit then ((encGroups s.groupBytes).take s.slot.val).map .char else [])

/-- The invariant that ties the registers to the events of the current call (46_sequencing.md R217, R219 and
the proof outline of R220). -/
structure CallInv (s : State) : Prop extends RegInv s where
  /-- A call is open in the history exactly when `phase` is not IDLE (R201, R213). -/
  isOpen : callOpen s.events = decide (s.phase ≠ .idle)
  /-- `len` is the length of the last command (R22). -/
  length : s.phase ≠ .idle → lastCmd s.events = some s.len.toNat
  /-- `err` is the outcome of the two checks on that length (R160). -/
  verdict : s.phase ≠ .idle → s.err = lengthCheck s.len
  /-- `pos` counts the bytes taken (R23). -/
  count : s.phase ≠ .idle → (callBytes s.events).length = s.pos.toNat
  /-- The events of the call so far are the ones its bytes call for (R220). -/
  history : s.phase ≠ .idle → callTail s.events = s.expectedTail
  /-- R217: in ASSEMBLE `acc` "is the big-endian value of the `pos mod 4` bytes of the current group". -/
  partialValue : s.phase = .assemble → s.acc.toNat = bytesVal s.groupBytes
  /-- R217: in CONVERT `acc = v div 85^(4 - slot)` with `v` the value of the group. -/
  runningAcc : s.phase = .convert → s.acc.toNat = bytesVal s.groupBytes / 85 ^ (4 - s.slot.val)
  /-- R219 in CONVERT: `obuf[i] = ALPHA[d_i(v)]` for every `i > slot`. -/
  placedDigits : s.phase = .convert → ∀ i : Fin 5, s.slot < i →
    s.obuf[i] = alpha (digitAt (bytesVal s.groupBytes) i)
  /-- R219 in EMIT: `obuf[i] = ALPHA[d_i(v)]` for all `i`. -/
  filledDigits : s.phase = .emit → ∀ i : Fin 5, s.obuf[i] = alpha (digitAt (bytesVal s.groupBytes) i)

/-- The one input pin a phase looks at is 1; CONVERT looks at none (30_encoding.md R102). With `rst = 0`
the step is then not a WAIT operation. -/
def progresses (ph : Phase) (p : Pins) : Bool :=
  match ph with
  | .idle => p.cmdValid
  | .assemble => p.inValid
  | .convert => true
  | .emit => p.outReady
  | .report => p.stReady

/-- The number of operations that are not WAITs the running call still has to perform, its REPORT included
(R212). -/
def State.work (s : State) : Nat :=
  match s.phase with
  | .idle => 0
  | .assemble => (4 - s.pos.toNat % 4) + 5 + 5
      + 14 * ((s.len.toNat - 4 * (s.pos.toNat / 4) - 4) / 4) + 1
  | .convert => (s.slot.val + 1) + 5 + 14 * ((s.len.toNat - s.pos.toNat) / 4) + 1
  | .emit => (5 - s.slot.val) + 14 * ((s.len.toNat - s.pos.toNat) / 4) + 1
  | .report => 1

/-- In REPORT, the registers hold one of the four status words (30_encoding.md R95). Every state that meets the
register invariant does (46_sequencing.md R216). -/
def State.reportable (s : State) : Prop := s.phase = .report → s.status? ≠ none

/-- `n` steps of the machine, stopping at a stop (the host's `run` of `core`). -/
abbrev runSteps (n : Nat) (s : State) : Host.Outcome State Fault Refusal := Host.Core.run Sys2Proof.core n s

/-- Events that can follow one another, given whether a call is open: a command only when none is, a byte, a
character or a status only inside a call, a reset at any time; a status or a reset closes the call (R73,
R201, R239). -/
def wellNested : (isOpen : Bool) → List Event → Bool
  | _, [] => true
  | isOpen, .cmd _ :: es => !isOpen && wellNested true es
  | isOpen, .byte _ :: es => isOpen && wellNested isOpen es
  | isOpen, .char _ :: es => isOpen && wellNested isOpen es
  | isOpen, .status _ :: es => isOpen && wellNested false es
  | _, .reset :: es => wellNested false es

/-- Two lines agree on all a phase looks at: `rst`, and with `rst = 0` the phase's one handshake pin and, when
it is 1, the data pin of its transfer (30_encoding.md R102, R103). -/
def agreeFor (ph : Phase) (p q : Pins) : Prop :=
  p.rst = q.rst ∧ (p.rst = false →
    match ph with
    | .idle => p.cmdValid = q.cmdValid ∧ (p.cmdValid = true → p.cmdLen = q.cmdLen)
    | .assemble => p.inValid = q.inValid ∧ (p.inValid = true → p.inData = q.inData)
    | .convert => True
    | .emit => p.outReady = q.outReady
    | .report => p.stReady = q.stReady)

/-- `rst` is 0 in each of the first `n` steps from `s` (R213: "`rst` stays 0"). -/
def resetFree : (n : Nat) → (s : State) → Prop
  | 0, _ => True
  | n + 1, s => s.line.rst = false ∧
    match step s with
    | .next t => resetFree n t
    | .fault _ | .refused _ => True

/-- How many of the first `n` steps from `s` find the pin their phase looks at at 1 (R213: the environment is
fair when this grows without bound). -/
def progressSteps : (n : Nat) → (s : State) → Nat
  | 0, _ => 0
  | n + 1, s => (if progresses s.phase s.line then 1 else 0) +
    match step s with
    | .next t => progressSteps n t
    | .fault _ | .refused _ => 0

end Sys2Proof.Machine
end

