-- ==== Sys2Proof/Certificates/Slice0/Obligations.lean ====
section
/-! DEFINITION. The statements for the provers. Each docstring names the rule or the sentence of spec/ it
formalises; where the spec marks that sentence as its own inference the statement is of basis 'derived'. -/

open Sys2Proof Sys2Proof.Machine

/-! ## The step and the encoding -/

/-- A step performs the operation its selector word decodes to, on the state whose line has been used up; the
line is the next written one, or a line of the free environment when none is written (assumptions 3, 5). -/
def Obligations.StepPerformsSelectedOperation : Prop :=
  (∀ (s : State) (i : Instr), decode s.inWord = .instr i → step s = exec i s.advance) ∧
  (∀ (s : State) (p : Pins) (ps : List Pins), s.trace = p :: ps →
    s.inWord = sampleWord s.lenW s.phase p ∧ s.advance = { s with trace := ps }) ∧
  (∀ s : State, s.trace = [] →
    s.inWord = sampleWord s.lenW s.phase (Config.freePins s.drawn) ∧
      s.advance = { s with drawn := s.drawn + 1 })

/-- R100: the layout of the selector word, built from `phase` before the step and the pins of the step, and the ten
rows of the operation map, each operation selected exactly when `(sel AND mask) = match`, with its operand from
its data pin; every step performs one of them. -/
def Obligations.SelectorWordSelectsTheTenRows : Prop :=
  (∀ s : State, s.inWord.sel = selector s.phase s.line ∧ s.inWord.inData = s.line.inData ∧
    s.inWord.cmdLen.toNat = s.line.cmdLen % 2 ^ s.lenW ∧
    ∃ i, decode s.inWord = .instr i ∧ step s = exec i s.advance) ∧
  (∀ (ph : Phase) (p : Pins),
    (selector ph p).getLsbD 7 = p.rst ∧ (selector ph p).extractLsb' 4 3 = ph.code ∧
      (selector ph p).getLsbD 3 = p.cmdValid ∧ (selector ph p).getLsbD 2 = p.inValid ∧
      (selector ph p).getLsbD 1 = p.outReady ∧ (selector ph p).getLsbD 0 = p.stReady) ∧
  (Phase.idle.code = 0#3 ∧ Phase.assemble.code = 1#3 ∧ Phase.convert.code = 2#3 ∧
    Phase.emit.code = 3#3 ∧ Phase.report.code = 4#3) ∧
  ∀ (w : Nat) (x : InWord w),
    (decode x = .instr .reset ↔ x.sel &&& 0x80#8 = 0x80#8) ∧
    (decode x = .instr (.accept x.cmdLen.toNat) ↔ x.sel &&& 0xF8#8 = 0x08#8) ∧
    (decode x = .instr .waitCmd ↔ x.sel &&& 0xF8#8 = 0x00#8) ∧
    (decode x = .instr (.shiftin x.inData) ↔ x.sel &&& 0xF4#8 = 0x14#8) ∧
    (decode x = .instr .waitByte ↔ x.sel &&& 0xF4#8 = 0x10#8) ∧
    (decode x = .instr .divstep ↔ x.sel &&& 0xF0#8 = 0x20#8) ∧
    (decode x = .instr .emit ↔ x.sel &&& 0xF2#8 = 0x32#8) ∧
    (decode x = .instr .waitSink ↔ x.sel &&& 0xF2#8 = 0x30#8) ∧
    (decode x = .instr .report ↔ x.sel &&& 0xF1#8 = 0x41#8) ∧
    (decode x = .instr .waitAck ↔ x.sel &&& 0xF1#8 = 0x40#8)

/-- The map is total and unambiguous on every reachable selector (the spec's own inference, R101): one row
matches, or none, by name, for 0x50 to 0x7F; with the number of selectors of each row. -/
def Obligations.SelectorMapIsTotalAndUnambiguous : Prop :=
  (∀ (w : Nat) (x : InWord w),
    ((tableRows x).filter (selects x.sel)).length =
      (if 0x50 ≤ x.sel.toNat ∧ x.sel.toNat ≤ 0x7F then 0 else 1)) ∧
  (∀ (w : Nat) (x : InWord w), 0x50 ≤ x.sel.toNat → x.sel.toNat ≤ 0x7F →
    decode x = .reservedPhase (x.sel.extractLsb' 4 3)) ∧
  (∀ i : Instr, ((List.range 256).filter fun n => selects (BitVec.ofNat 8 n) i).length =
    (if i = .reset then 128 else if i = .divstep then 16 else 8))

/-- Decoding what the encoder writes gives the operation back, with its operand at every value LEN_W pins or
8 data pins admit. -/
def Obligations.DecodeOfEncodeIsTheOperation : Prop :=
  ∀ (w : Nat) (i : Instr), i.wf w = true → decode (encode w i) = .instr i

/-- The other direction: a word that decodes agrees with the encoding of what it decodes to, on the bits of the
row's mask and on the data pin the operation reads. -/
def Obligations.EncodeOfDecodeAgreesOnTheMask : Prop :=
  ∀ (w : Nat) (x : InWord w) (i : Instr), decode x = .instr i →
    i.wf w = true ∧ x.sel &&& maskOf i = (encode w i).sel ∧
      (∀ cmdLen, i = .accept cmdLen → (encode w i).cmdLen = x.cmdLen) ∧
      (∀ inData, i = .shiftin inData → (encode w i).inData = x.inData)

/-- Some selector words written out from R100, one for each row, decode to their operations; two reserved ones
to none. -/
def Obligations.SelectorWordsOfEachRowDecode : Prop :=
  decodeTableWord 8 0b11010000 = some .reset ∧
  decodeTableWord 8 0b00001111 = some (.accept 0) ∧
  decodeTableWord 8 0b00000111 = some .waitCmd ∧
  decodeTableWord 8 0b00011100 = some (.shiftin 0#8) ∧
  decodeTableWord 8 0b00011011 = some .waitByte ∧
  decodeTableWord 8 0b00101111 = some .divstep ∧
  decodeTableWord 8 0b00111110 = some .emit ∧
  decodeTableWord 8 0b00111101 = some .waitSink ∧
  decodeTableWord 8 0b01001111 = some .report ∧
  decodeTableWord 8 0b01001110 = some .waitAck ∧
  decodeTableWord 8 0b01010000 = none ∧ decodeTableWord 8 0b01111111 = none

/-- "A step is always possible" (R213): in every state that meets the register invariant, with every line, exactly
one operation is selected, and it answers a next state; every operation but REPORT answers a next state from
every state, and REPORT from every one whose registers hold a status word of R95. -/
def Obligations.EveryStepAnswersANextState : Prop :=
  (∀ s : State, ∃ i, decode s.inWord = .instr i ∧ (∀ j, decode s.inWord = .instr j → j = i) ∧
    (RegInv s → ∃ t, step s = .next t)) ∧
  (∀ (i : Instr) (s : State), i ≠ .report ∨ s.status? ≠ none → ∃ t, exec i s = .next t) ∧
  (∀ s : State, RegInv s → s.reportable)

/-! ## RESET -/

/-- R260: RESET gives every register its reset value, records `Reset`, and is what a step with `rst = 1` performs
whatever the phase and the other pins are. -/
def Obligations.ResetWritesEveryRegister : Prop :=
  (∀ s : State, exec .reset s = .next { s with
    phase := .idle, len := 0#s.lenW, pos := 0#s.lenW, acc := 0#32, slot := 4,
    obuf := #v[0x00#8, 0x00#8, 0x00#8, 0x00#8, 0x00#8], err := .ok, errparam := .zero, olen := 0#s.lenW,
    events := s.events ++ [.reset] }) ∧
  (∀ s : State, s.line.rst = true → step s = exec .reset s.advance)

/-- R261: the reset state has the values of R45 and satisfies the invariants; RESET reads no register, and from
every state of an instance (LEN_W >= 1) it leads to a state that satisfies them. -/
def Obligations.ResetReadsNoRegister : Prop :=
  (State.reset.phase = .idle ∧ State.reset.len.toNat = 0 ∧ State.reset.pos.toNat = 0 ∧
    State.reset.acc = 0#32 ∧ State.reset.slot = 4 ∧ (∀ k : Fin 5, State.reset.obuf[k] = 0x00#8) ∧
    State.reset.err = .ok ∧ State.reset.errparam = .zero ∧ State.reset.olen.toNat = 0) ∧
  CallInv State.reset ∧
  (∀ (s : State) (phase : Phase) (len pos olen : BitVec s.lenW) (acc : Value) (slot : Fin 5)
      (obuf : Vector Byte 5) (err : ErrKind) (errparam : ErrParam),
    exec .reset { s with phase := phase, len := len, pos := pos, acc := acc, slot := slot, obuf := obuf,
                         err := err, errparam := errparam, olen := olen } = exec .reset s) ∧
  (∀ s : State, 1 ≤ s.lenW → ∃ t, exec .reset s = .next t ∧ CallInv t)

/-- R262: `rst` held for `n` steps is `n` RESETs, with the registers of one; the first step with `rst = 0` after
a RESET is a WAIT_CMD or an ACCEPT. -/
def Obligations.HeldResetLeavesTheResetState : Prop :=
  (∀ (s : State) (lines rest : List Pins), lines ≠ [] → (∀ p ∈ lines, p.rst = true) →
    s.trace = lines ++ rest →
    runSteps lines.length s = .next { s with
      phase := .idle, len := 0#s.lenW, pos := 0#s.lenW, acc := 0#32, slot := 4,
      obuf := #v[0x00#8, 0x00#8, 0x00#8, 0x00#8, 0x00#8], err := .ok, errparam := .zero, olen := 0#s.lenW,
      events := s.events ++ List.replicate lines.length .reset, trace := rest }) ∧
  (∀ s t : State, exec .reset s = .next t → t.line.rst = false →
    decode t.inWord = .instr .waitCmd ∨ ∃ cmdLen, decode t.inWord = .instr (.accept cmdLen))

/-! ## S0 VALIDATE -/

/-- R160: ACCEPT, its selection, its checks in order and all its writes on each of the four paths. -/
def Obligations.AcceptValidatesInOrder : Prop :=
  (∀ s : State, s.line.rst = false → s.phase = .idle → s.line.cmdValid = true →
    step s = exec (.accept (s.line.cmdLen % 2 ^ s.lenW)) s.advance) ∧
  ∀ (s : State) (cmdLen : Nat),
    let l := BitVec.ofNat s.lenW cmdLen
    exec (.accept cmdLen) s = .next (
      if l.toNat > (2 ^ s.lenW - 1) / 5 then
        { s with len := l, pos := 0#s.lenW, acc := 0#32, slot := 4, err := .tooLong, errparam := .zero,
                 olen := 0#s.lenW, phase := .report, events := s.events ++ [.cmd l.toNat] }
      else if l.toNat % 4 ≠ 0 then
        { s with len := l, pos := 0#s.lenW, acc := 0#32, slot := 4, err := .invalidLength, errparam := .four,
                 olen := 0#s.lenW, phase := .report, events := s.events ++ [.cmd l.toNat] }
      else if l.toNat = 0 then
        { s with len := l, pos := 0#s.lenW, acc := 0#32, slot := 4, err := .ok, errparam := .zero,
                 olen := 0#s.lenW, phase := .report, events := s.events ++ [.cmd l.toNat] }
      else
        { s with len := l, pos := 0#s.lenW, acc := 0#32, slot := 4, err := .ok, errparam := .zero,
                 olen := l + (l >>> 2), phase := .assemble, events := s.events ++ [.cmd l.toNat] })

/-- R163: on the success path `olen` is `L + L div 4` exactly, nothing is lost to the width; on the other paths
it is 0. -/
def Obligations.AcceptResultLengthCannotOverflow : Prop :=
  ∀ (s : State) (cmdLen : Nat), ∃ t, exec (.accept cmdLen) s = .next t ∧
    (t.phase = .assemble →
      t.olen.toNat = t.len.toNat + t.len.toNat / 4 ∧ t.len.toNat + t.len.toNat / 4 ≤ 5 * t.len.toNat ∧
        5 * t.len.toNat ≤ 2 ^ s.lenW - 1) ∧
    (t.phase ≠ .assemble → t.olen.toNat = 0)

/-- R231: TooLong, when it is raised and what its status says. -/
def Obligations.TooLongWhenTheLengthExceedsTheLimit : Prop :=
  ∀ (s : State) (cmdLen : Nat), ∃ t, exec (.accept cmdLen) s = .next t ∧
    (t.err = .tooLong ↔ cmdLen % 2 ^ s.lenW > Config.lenLimit s.lenW) ∧
    (t.err = .tooLong → t.phase = .report ∧ t.errparam = .zero ∧ t.olen.toNat = 0 ∧
      t.len.toNat = cmdLen % 2 ^ s.lenW ∧
      t.outputs.stCode = some 1#2 ∧ t.outputs.stParam = some 0#3 ∧ t.outputs.stOlen = some 0)

/-- R232: InvalidLength, when it is raised and what its status says. -/
def Obligations.InvalidLengthWhenNotAMultipleOfFour : Prop :=
  ∀ (s : State) (cmdLen : Nat), ∃ t, exec (.accept cmdLen) s = .next t ∧
    (t.err = .invalidLength ↔
      cmdLen % 2 ^ s.lenW ≤ Config.lenLimit s.lenW ∧ (cmdLen % 2 ^ s.lenW) % 4 ≠ 0) ∧
    (t.err = .invalidLength → t.phase = .report ∧ t.errparam = .four ∧ t.olen.toNat = 0 ∧
      t.len.toNat = cmdLen % 2 ^ s.lenW ∧
      t.outputs.stCode = some 2#2 ∧ t.outputs.stParam = some 4#3 ∧ t.outputs.stOlen = some 0)

/-- R230: the two failure kinds are raised by ACCEPT and by no other operation, before the call has had any
effect outside the registers: the step's one event is its `Cmd`. -/
def Obligations.OnlyAcceptRaisesAFailure : Prop :=
  ∀ (i : Instr) (s t : State), exec i s = .next t → t.err ≠ s.err → t.err ≠ .ok →
    (∃ cmdLen, i = .accept cmdLen) ∧ (t.err = .tooLong ∨ t.err = .invalidLength) ∧ t.phase = .report ∧
      t.obuf = s.obuf ∧ t.events = s.events ++ [.cmd t.len.toNat]

/-- R165: the empty call. `CMD 0` goes straight to REPORT and, when the status is taken, the history has grown
by `Cmd(0)` and `Status(0,0,0)` alone; ASSEMBLE is never entered with `len = 0`, by a command or later. -/
def Obligations.EmptyCallReportsAtOnce : Prop :=
  (∀ s : State, ∃ t, exec (.accept 0) s = .next t ∧ t.err = .ok ∧ t.olen.toNat = 0 ∧ t.phase = .report) ∧
  (∀ (s : State) (rest : List Pins), s.phase = .idle → s.trace = lineCmd 0 :: lineAck :: rest →
    ∃ t, runSteps 2 s = .next t ∧ t.phase = .idle ∧
      t.events = s.events ++ [.cmd 0, .status .empty]) ∧
  (∀ (s t : State) (cmdLen : Nat), exec (.accept cmdLen) s = .next t → t.phase = .assemble →
    t.len.toNat ≠ 0) ∧
  (∀ s t : State, RegInv s → step s = .next t → t.phase = .assemble → t.len.toNat ≠ 0)

/-! ## The WAIT operations -/

/-- R166, R172, R192, R202: a WAIT changes nothing; it is what a phase performs while the pin it looks at is 0,
for any number of steps, and the output pins stay what they are meanwhile. -/
def Obligations.WaitsKeepEveryRegister : Prop :=
  (∀ s : State, exec .waitCmd s = .next s ∧ exec .waitByte s = .next s ∧ exec .waitSink s = .next s ∧
    exec .waitAck s = .next s) ∧
  (∀ s : State, s.line.rst = false →
    (s.phase = .idle → s.line.cmdValid = false → decode s.inWord = .instr .waitCmd) ∧
    (s.phase = .assemble → s.line.inValid = false → decode s.inWord = .instr .waitByte) ∧
    (s.phase = .emit → s.line.outReady = false → decode s.inWord = .instr .waitSink) ∧
    (s.phase = .report → s.line.stReady = false → decode s.inWord = .instr .waitAck)) ∧
  (∀ (s : State) (lines rest : List Pins),
    (∀ p ∈ lines, p.rst = false ∧ progresses s.phase p = false) → s.trace = lines ++ rest →
    runSteps lines.length s = .next { s with trace := rest } ∧
      State.outputs { s with trace := rest } = s.outputs)

/-! ## S1 ASSEMBLE -/

/-- R170: SHIFTIN, its selection and all its writes; the byte it takes is SRC element `pos`, the one after the `pos`
bytes the call has taken so far. -/
def Obligations.ShiftinTakesTheNextByte : Prop :=
  (∀ s : State, s.line.rst = false → s.phase = .assemble → s.line.inValid = true →
    step s = exec (.shiftin s.line.inData) s.advance) ∧
  (∀ s : State, CallInv s → s.phase = .assemble → (callBytes s.events).length = s.pos.toNat) ∧
  ∀ (s : State) (b : Byte), exec (.shiftin b) s = .next (
    if (s.pos + 1#s.lenW).toNat % 4 = 0 then
      { s with acc := s.acc.extractLsb' 0 24 ++ b, pos := s.pos + 1#s.lenW, phase := .convert, slot := 4,
               events := s.events ++ [.byte b] }
    else
      { s with acc := s.acc.extractLsb' 0 24 ++ b, pos := s.pos + 1#s.lenW,
               events := s.events ++ [.byte b] })

/-- R66, R171: the four SHIFTINs of a group leave its big-endian value in `acc`, whatever `acc` held before. -/
def Obligations.FourShiftinsAssembleTheGroupBigEndian : Prop :=
  ∀ (s : State) (b0 b1 b2 b3 : Byte) (rest : List Pins), s.phase = .assemble → s.pos.toNat % 4 = 0 →
    s.pos.toNat + 4 < 2 ^ s.lenW →
    s.trace = lineByte b0 :: lineByte b1 :: lineByte b2 :: lineByte b3 :: rest →
    ∃ t, runSteps 4 s = .next t ∧
      t.acc.toNat = b0.toNat * 2 ^ 24 + b1.toNat * 2 ^ 16 + b2.toNat * 2 ^ 8 + b3.toNat ∧
      t.acc.extractLsb' 24 8 = b0 ∧ t.acc.extractLsb' 16 8 = b1 ∧ t.acc.extractLsb' 8 8 = b2 ∧
      t.acc.extractLsb' 0 8 = b3 ∧ t.pos.toNat = s.pos.toNat + 4 ∧ t.phase = .convert ∧ t.slot = 4 ∧
      t.events = s.events ++ [.byte b0, .byte b1, .byte b2, .byte b3] ∧ t.trace = rest ∧
      t.obuf = s.obuf ∧ t.len.toNat = s.len.toNat ∧ t.olen.toNat = s.olen.toNat ∧ t.err = s.err ∧
      t.errparam = s.errparam

/-! ## S2 CONVERT -/

/-- R180: DIVSTEP, its selection whatever the handshake pins are, and all its writes. -/
def Obligations.DivstepPlacesOneDigit : Prop :=
  (∀ s : State, s.line.rst = false → s.phase = .convert → step s = exec .divstep s.advance) ∧
  ∀ s : State,
    let d : Fin 85 := ⟨s.acc.toNat % 85, Nat.mod_lt _ (by decide)⟩
    exec .divstep s = .next (
      if s.slot.val = 0 then
        { s with obuf := s.obuf.set s.slot (alpha d), acc := BitVec.ofNat 32 (s.acc.toNat / 85),
                 phase := .emit }
      else
        { s with obuf := s.obuf.set s.slot (alpha d), acc := BitVec.ofNat 32 (s.acc.toNat / 85),
                 slot := ⟨s.slot.val - 1, by omega⟩ })

/-- R181, R182, R183: from CONVERT with `slot = 4`, five steps with `rst = 0` and any other pins fill the buffer
with the characters of the value's five digits, from the last position to the first, leave `acc = 0` and reach
EMIT with `slot = 0`, with no event and nothing else changed; before the fifth the phase is CONVERT and all four
valid and ready outputs are 0; the buffer reads as the digit loop's string (R135). -/
def Obligations.FiveDivstepsFillTheBuffer : Prop :=
  ∀ (s : State) (lines rest : List Pins), s.phase = .convert → s.slot = 4 → lines.length = 5 →
    (∀ p ∈ lines, p.rst = false) → s.trace = lines ++ rest →
    runSteps 5 s = .next { s with
      phase := .emit, slot := 0, acc := 0#32,
      obuf := Vector.ofFn fun k => alpha (digitAt s.acc.toNat k), trace := rest } ∧
    (Vector.ofFn fun k => alpha (digitAt s.acc.toNat k)).toList = digitLoop 5 s.acc.toNat [] ∧
    ∀ n : Nat, n < 5 → ∃ u, runSteps n s = .next u ∧ u.phase = .convert ∧ u.slot.val = 4 - n ∧
      u.acc.toNat = s.acc.toNat / 85 ^ n ∧ u.events = s.events ∧
      (∀ k : Fin 5, u.obuf[k] = if u.slot < k then alpha (digitAt s.acc.toNat k) else s.obuf[k]) ∧
      u.outputs.cmdReady = false ∧ u.outputs.inReady = false ∧ u.outputs.outValid = false ∧
      u.outputs.stValid = false

/-! ## S3 EMIT -/

/-- R190: EMIT, its selection and all its writes, with the end-of-source test of R191; the character it sends is DST
element `5*(pos/4 - 1) + slot`, the number of characters the call has sent before. -/
def Obligations.EmitSendsTheOfferedCharacter : Prop :=
  (∀ s : State, s.line.rst = false → s.phase = .emit → s.line.outReady = true →
    step s = exec .emit s.advance) ∧
  (∀ s : State, CallInv s → s.phase = .emit →
    (callChars s.events).length = 5 * (s.pos.toNat / 4 - 1) + s.slot.val) ∧
  ∀ s : State, exec .emit s = .next (
    if h : s.slot.val = 4 then
      if s.pos = s.len then
        { s with phase := .report, events := s.events ++ [.char s.obuf[s.slot]] }
      else
        { s with phase := .assemble, events := s.events ++ [.char s.obuf[s.slot]] }
    else
      { s with slot := ⟨s.slot.val + 1, by omega⟩, events := s.events ++ [.char s.obuf[s.slot]] })

/-- Over a group's stay in EMIT the characters sent are `obuf[0]` to `obuf[4]`, each once, in order, whatever
waits lie between them (the spec's own inference, R193). -/
def Obligations.EmitSendsTheBufferOnceInOrder : Prop :=
  ∀ (s : State) (lines rest : List Pins) (last : Pins), s.phase = .emit → s.slot = 0 →
    (∀ p ∈ lines, p.rst = false) → (lines.filter fun p => p.outReady).length = 4 →
    last.rst = false → last.outReady = true → s.trace = lines ++ last :: rest →
    runSteps (lines.length + 1) s = .next { s with
      phase := if s.pos = s.len then .report else .assemble, slot := 4, trace := rest,
      events := s.events ++ [.char s.obuf[0], .char s.obuf[1], .char s.obuf[2], .char s.obuf[3],
        .char s.obuf[4]] }

/-! ## S4 REPORT -/

/-- R200: REPORT, its selection and its one write, when the registers hold one of the four status words of R95, which
every reachable state in REPORT does (R216); the event carries the word whose fields are the three registers,
those on the status pins; a command offered in the same step is not taken. -/
def Obligations.ReportHandsOverTheStatus : Prop :=
  (∀ s : State, s.line.rst = false → s.phase = .report → s.line.stReady = true →
    step s = exec .report s.advance) ∧
  (∀ s : State, RegInv s → s.phase = .report → s.status? ≠ none) ∧
  ∀ (s : State) (word : Status), s.status? = some word →
    word.code = s.err.code ∧ word.param = s.errparam.code ∧ word.olen = s.olen.toNat ∧
    exec .report s = .next { s with phase := .idle, events := s.events ++ [.status word] }

/-- R95: the fields of the status word, the fields of the four words, and that they are the only ones ever offered: in
every state that satisfies the call invariant, by the length of the call, with the word REPORT then records. -/
def Obligations.StatusWordIsOneOfFour : Prop :=
  (∀ (w : Nat) (code : BitVec 2) (param : BitVec 3) (olen : BitVec w),
    (packStatus code param olen).extractLsb' (w + 3) 2 = code ∧
      (packStatus code param olen).extractLsb' w 3 = param ∧
      (packStatus code param olen).extractLsb' 0 w = olen) ∧
  (∀ n : Nat,
    (Status.empty.code = 0#2 ∧ Status.empty.param = 0#3 ∧ Status.empty.olen = 0) ∧
    ((Status.success n).code = 0#2 ∧ (Status.success n).param = 0#3 ∧ (Status.success n).olen = n) ∧
    (Status.tooLong.code = 1#2 ∧ Status.tooLong.param = 0#3 ∧ Status.tooLong.olen = 0) ∧
    (Status.invalidLength.code = 2#2 ∧ Status.invalidLength.param = 4#3 ∧ Status.invalidLength.olen = 0)) ∧
  ∀ s : State, CallInv s → s.phase = .report →
    s.statusWord = packStatus s.err.code s.errparam.code s.olen ∧
    (s.len.toNat > Config.lenLimit s.lenW → s.status? = some .tooLong ∧
      s.err.code = 1#2 ∧ s.errparam.code = 0#3 ∧ s.olen.toNat = 0) ∧
    (s.len.toNat ≤ Config.lenLimit s.lenW → s.len.toNat % 4 ≠ 0 → s.status? = some .invalidLength ∧
      s.err.code = 2#2 ∧ s.errparam.code = 4#3 ∧ s.olen.toNat = 0) ∧
    (s.len.toNat = 0 → s.status? = some .empty ∧
      s.err.code = 0#2 ∧ s.errparam.code = 0#3 ∧ s.olen.toNat = 0) ∧
    (0 < s.len.toNat → s.len.toNat ≤ Config.lenLimit s.lenW → s.len.toNat % 4 = 0 →
      s.status? = some (.success (s.len.toNat + s.len.toNat / 4)) ∧
      s.err.code = 0#2 ∧ s.errparam.code = 0#3 ∧ s.olen.toNat = s.len.toNat + s.len.toNat / 4)

/-! ## Ports, transfers, sequencing -/

/-- R42, R43: the outputs are functions of the registers; exactly one of the four valid and ready outputs is 1,
none in CONVERT; a data output is exposed only with its valid; and an offered character or status stays
on the pins while it is not taken and the block is not reset. -/
def Obligations.OutputsFollowTheRegisters : Prop :=
  (∀ s : State,
    s.outputs.cmdReady = (s.phase == .idle) ∧ s.outputs.inReady = (s.phase == .assemble) ∧
    s.outputs.outValid = (s.phase == .emit) ∧ s.outputs.stValid = (s.phase == .report) ∧
    s.outputs.outData = (if s.outputs.outValid then some s.obuf[s.slot] else none) ∧
    s.outputs.stCode = (if s.outputs.stValid then some s.err.code else none) ∧
    s.outputs.stParam = (if s.outputs.stValid then some s.errparam.code else none) ∧
    s.outputs.stOlen = (if s.outputs.stValid then some s.olen.toNat else none) ∧
    ([s.outputs.cmdReady, s.outputs.inReady, s.outputs.outValid, s.outputs.stValid].filter id).length =
      (if s.phase = .convert then 0 else 1)) ∧
  (∀ s : State, s.line.rst = false →
    (s.outputs.outValid = true ∧ s.line.outReady = false) ∨
      (s.outputs.stValid = true ∧ s.line.stReady = false) →
    ∃ t, step s = .next t ∧ t.outputs = s.outputs)

/-- R41, R44: in every step the events recorded are exactly its transfers, one for each channel whose valid and
ready are both 1, with the data on its pins; a step with `rst = 1` records `Reset` and no transfer. In REPORT the
registers are to hold a status word of R95, as in every reachable state. -/
def Obligations.TransferWhenValidAndReady : Prop :=
  ∀ s : State, s.reportable → ∃ t, step s = .next t ∧ t.events = s.events ++
    (if s.line.rst then [Event.reset] else
      [if s.line.cmdValid && s.outputs.cmdReady then [Event.cmd (s.line.cmdLen % 2 ^ s.lenW)] else [],
       if s.line.inValid && s.outputs.inReady then [Event.byte s.line.inData] else [],
       if s.outputs.outValid && s.line.outReady then [Event.char s.obuf[s.slot]] else [],
       if s.outputs.stValid && s.line.stReady then
         s.status?.toList.map Event.status else []].flatten)

/-- R102: `rst` beats everything, and below it only the one pin a phase looks at (and the data of its transfer)
has an effect: two lines that agree on these give the same step. -/
def Obligations.IgnoredPinsHaveNoEffect : Prop :=
  (∀ (s : State) (p q : Pins) (rest : List Pins), agreeFor s.phase p q →
    step { s with trace := p :: rest } = step { s with trace := q :: rest }) ∧
  (∀ s : State, s.line.rst = true → decode s.inWord = .instr .reset)

/-- R210: the complete next-phase function, with the other sequencing writes, with every line and from every state
whose registers, in REPORT, hold a status word of R95. -/
def Obligations.NextPhaseFunction : Prop :=
  ∀ s : State, s.reportable → ∃ t, step s = .next t ∧
    if s.line.rst then t.phase = .idle ∧ t.slot = 4 ∧ t.pos.toNat = 0
    else match s.phase with
      | .idle =>
        if s.line.cmdValid then
          t.pos.toNat = 0 ∧ t.slot = 4 ∧
            (let l := s.line.cmdLen % 2 ^ s.lenW
             t.phase = if l > Config.lenLimit s.lenW then .report
               else if l % 4 ≠ 0 then .report
               else if l = 0 then .report else .assemble)
        else t.phase = .idle ∧ t.pos.toNat = s.pos.toNat ∧ t.slot = s.slot
      | .assemble =>
        if s.line.inValid then
          t.pos.toNat = (s.pos + 1#s.lenW).toNat ∧
            (if (s.pos + 1#s.lenW).toNat % 4 = 0 then t.phase = .convert ∧ t.slot = 4
             else t.phase = .assemble ∧ t.slot = s.slot)
        else t.phase = .assemble ∧ t.pos.toNat = s.pos.toNat ∧ t.slot = s.slot
      | .convert =>
        t.pos.toNat = s.pos.toNat ∧
          (if s.slot.val = 0 then t.phase = .emit ∧ t.slot = s.slot
           else t.phase = .convert ∧ t.slot.val + 1 = s.slot.val)
      | .emit =>
        t.pos.toNat = s.pos.toNat ∧
          (if s.line.outReady then
            (if s.slot.val = 4 then
              t.slot = s.slot ∧ t.phase = (if s.pos = s.len then .report else .assemble)
             else t.phase = .emit ∧ t.slot.val = s.slot.val + 1)
           else t.phase = .emit ∧ t.slot = s.slot)
      | .report =>
        t.pos.toNat = s.pos.toNat ∧ t.slot = s.slot ∧
          t.phase = (if s.line.stReady then .idle else .report)

/-- The frame of every operation (the write columns of the table of R30): a register not in an operation's column
keeps its value; only DIVSTEP and RESET touch the buffer, DIVSTEP one entry of it; DIVSTEP and the WAITs
record no event; no operation touches LEN_W (R35) or the input lines. -/
def Obligations.EachOperationWritesOnlyItsRegisters : Prop :=
  ∀ (i : Instr) (s t : State), exec i s = .next t →
    t.lenW = s.lenW ∧ t.trace = s.trace ∧ t.drawn = s.drawn ∧
    ((i = .reset ∨ ∃ cmdLen, i = .accept cmdLen) ∨
      (t.len.toNat = s.len.toNat ∧ t.err = s.err ∧ t.errparam = s.errparam ∧ t.olen.toNat = s.olen.toNat)) ∧
    ((i = .reset ∨ (∃ cmdLen, i = .accept cmdLen) ∨ ∃ inData, i = .shiftin inData) ∨
      t.pos.toNat = s.pos.toNat) ∧
    ((i = .reset ∨ (∃ cmdLen, i = .accept cmdLen) ∨ (∃ inData, i = .shiftin inData) ∨ i = .divstep) ∨
      t.acc = s.acc) ∧
    ((i = .reset ∨ (∃ cmdLen, i = .accept cmdLen) ∨ (∃ inData, i = .shiftin inData) ∨ i = .divstep ∨
      i = .emit) ∨ t.slot = s.slot) ∧
    (i = .reset ∨ (i = .divstep ∧ ∀ k : Fin 5, k ≠ s.slot → t.obuf[k] = s.obuf[k]) ∨ t.obuf = s.obuf) ∧
    ((i = .waitCmd ∨ i = .waitByte ∨ i = .waitSink ∨ i = .waitAck) → t = s) ∧
    (if i = .divstep ∨ i = .waitCmd ∨ i = .waitByte ∨ i = .waitSink ∨ i = .waitAck
     then t.events = s.events else ∃ e, t.events = s.events ++ [e])

/-- A step never changes LEN_W (R35), uses up exactly one line, and only ever adds to the history, at most one
event (R44, R70). -/
def Obligations.StepExtendsTheHistoryByAtMostOneEvent : Prop :=
  ∀ s t : State, step s = .next t →
    t.lenW = s.lenW ∧ t.trace = s.trace.tail ∧
      (t.events = s.events ∨ ∃ e, t.events = s.events ++ [e])

/-! ## Invariants -/

/-- The register invariants of R216 to R218 hold in the reset state (R261). -/
def Obligations.ResetStateMeetsTheRegisterInvariant : Prop := RegInv State.reset

/-- The register invariants of R215 to R218, and of R219 what R221 needs, are kept by every step (the spec's own
inferences). -/
def Obligations.StepKeepsTheRegisterInvariant : Prop :=
  ∀ s t : State, RegInv s → step s = .next t → RegInv t

/-- The call invariant holds in the reset state. -/
def Obligations.ResetStateMeetsTheCallInvariant : Prop := CallInv State.reset

/-- The invariant that ties the registers to the events of the call (R217, R219, and the proof outline of R220,
the spec's own inferences) is kept by every step. -/
def Obligations.StepKeepsTheCallInvariant : Prop :=
  ∀ s t : State, CallInv s → step s = .next t → CallInv t

/-- `pos` never wraps (R23): a SHIFTIN counts exactly one byte and never steps past `len`, which stays within the
limit. -/
def Obligations.SourcePositionNeverWraps : Prop :=
  ∀ s : State, RegInv s → s.phase = .assemble → s.line.rst = false → s.line.inValid = true →
    ∃ t, step s = .next t ∧ t.pos.toNat = s.pos.toNat + 1 ∧ t.pos.toNat ≤ t.len.toNat ∧
      t.len.toNat ≤ Config.lenLimit t.lenW ∧ Config.lenLimit t.lenW < 2 ^ t.lenW

/-- Every character sent is one of the 85 codes, with bit 7 clear (the block's alphabet closure, R221, the spec's
own inference; R94). -/
def Obligations.OnlyAlphabetCharactersAreSent : Prop :=
  ∀ (s t : State) (c : Byte), RegInv s → step s = .next t → t.events = s.events ++ [.char c] →
    InAlphabet c ∧ c.getLsbD 7 = false

/-- Commands, their bytes, characters and status follow one another as R73 and R201 say, over any number of steps
and any input: no call starts before the one before has been reported or reset, and no transfer of a call
happens outside it (R239). -/
def Obligations.CallsNeverOverlap : Prop :=
  ∀ (n : Nat) (s t : State), CallInv s → runSteps n s = .next t →
    ∃ es, t.events = s.events ++ es ∧ wellNested (callOpen s.events) es = true

/-! ## Whole calls -/

/-- What a call does (the spec's own inference, R220): from any state that meets the call invariant with
`phase = IDLE`, through any run with any input, once a command has been followed by its status with no reset
between, the bytes taken, the characters sent, their order and the status are those of `encode`. -/
def Obligations.CallComputesTheTransform : Prop :=
  ∀ (n : Nat) (s t : State) (len : Nat) (mid : List Event) (word : Status),
    CallInv s → s.phase = .idle → runSteps n s = .next t →
    t.events = s.events ++ (.cmd len :: (mid ++ [.status word])) →
    (∀ e ∈ mid, e.endsCall = false) →
    (len > Config.lenLimit s.lenW → mid = [] ∧
      word.code = 1#2 ∧ word.param = 0#3 ∧ word.olen = 0) ∧
    (len ≤ Config.lenLimit s.lenW → len % 4 ≠ 0 → mid = [] ∧
      word.code = 2#2 ∧ word.param = 4#3 ∧ word.olen = 0) ∧
    (len ≤ Config.lenLimit s.lenW → len % 4 = 0 →
      (bytesOf mid).length = len ∧ encodeBytes s.lenW (bytesOf mid) = .ok (charsOf mid) ∧
        (charsOf mid).length = len + len / 4 ∧ mid = groupEvents (bytesOf mid) ∧
        word.code = 0#2 ∧ word.param = 0#3 ∧ word.olen = len + len / 4)

/-- No information passes from one call to the next, and the schedule does not matter (the spec's own inferences,
R222, R223): two calls of the same length that took the same bytes, in any two runs of instances with the
same LEN_W, have the same events and the same status. -/
def Obligations.CallResultIgnoresHistoryAndSchedule : Prop :=
  ∀ (n1 n2 : Nat) (s1 s2 t1 t2 : State) (len : Nat) (mid1 mid2 : List Event)
    (word1 word2 : Status),
    s1.lenW = s2.lenW →
    CallInv s1 → s1.phase = .idle → runSteps n1 s1 = .next t1 →
    t1.events = s1.events ++ (.cmd len :: (mid1 ++ [.status word1])) →
    (∀ e ∈ mid1, e.endsCall = false) →
    CallInv s2 → s2.phase = .idle → runSteps n2 s2 = .next t2 →
    t2.events = s2.events ++ (.cmd len :: (mid2 ++ [.status word2])) →
    (∀ e ∈ mid2, e.endsCall = false) →
    bytesOf mid1 = bytesOf mid2 →
    mid1 = mid2 ∧ word1 = word2

/-- `ENCODE` (R106) performs one whole call in `2 + 14*(L/4)` steps (R212, R280, the spec's own count), from any
state with `phase = IDLE`, reachable or not. -/
def Obligations.EncodeTraceRunsOneWholeCall : Prop :=
  ∀ (s : State) (source : List Byte) (rest : List Pins), s.phase = .idle →
    source.length % 4 = 0 → source.length ≤ Config.lenLimit s.lenW →
    s.trace = traceEncode source ++ rest →
    (traceEncode source).length = 2 + 14 * (source.length / 4) ∧
    ∃ t, runSteps (2 + 14 * (source.length / 4)) s = .next t ∧
      t.events = s.events ++ (.cmd source.length ::
        (groupEvents source ++ [.status (if source = [] then .empty
          else .success (source.length + source.length / 4))])) ∧
      t.phase = .idle ∧ t.len.toNat = source.length ∧ t.pos.toNat = source.length ∧ t.acc = 0#32 ∧
      t.slot = 4 ∧ t.err = .ok ∧ t.errparam = .zero ∧
      t.olen.toNat = source.length + source.length / 4 ∧ t.trace = rest ∧
      (source = [] → t.obuf = s.obuf) ∧
      (source ≠ [] → t.obuf.toList = encGroups (source.drop (source.length - 4)))

/-- `GREEDY` causes the same operations as `ENCODE` in the same number of steps (R106): the two runs end in the
same state. -/
def Obligations.GreedyTraceRunsTheSameCall : Prop :=
  ∀ (s : State) (source : List Byte) (rest : List Pins), s.phase = .idle →
    source.length % 4 = 0 → source.length ≤ Config.lenLimit s.lenW →
    (traceGreedy source).length = (traceEncode source).length ∧
    runSteps (traceGreedy source).length { s with trace := traceGreedy source ++ rest } =
      runSteps (traceEncode source).length { s with trace := traceEncode source ++ rest }

/-- R164, R238: a failed call hands over its status and does nothing else. The failing ACCEPT goes to REPORT; any number
of WAIT_ACKs may lie between it and its REPORT operation; no byte and no character is transferred, the registers other than those ACCEPT
and REPORT write keep their values, the failing length stays in `len`, and the next phase is IDLE. -/
def Obligations.FailedCallHandsOverOnlyItsStatus : Prop :=
  ∀ (s : State) (command last : Pins) (waits rest : List Pins),
    let l := BitVec.ofNat s.lenW command.cmdLen
    s.phase = .idle → command.rst = false → command.cmdValid = true →
    (∀ p ∈ waits, p.rst = false ∧ p.stReady = false) → last.rst = false → last.stReady = true →
    s.trace = command :: (waits ++ last :: rest) →
    (l.toNat > Config.lenLimit s.lenW ∨ l.toNat % 4 ≠ 0 → ∃ u, step s = .next u ∧ u.phase = .report ∧
      u.obuf = s.obuf ∧ u.events = s.events ++ [.cmd l.toNat]) ∧
    (l.toNat > Config.lenLimit s.lenW → runSteps (waits.length + 2) s = .next { s with
      len := l, pos := 0#s.lenW, acc := 0#32, slot := 4, err := .tooLong, errparam := .zero, olen := 0#s.lenW,
      events := s.events ++ [.cmd l.toNat, .status .tooLong], trace := rest }) ∧
    (l.toNat ≤ Config.lenLimit s.lenW → l.toNat % 4 ≠ 0 → runSteps (waits.length + 2) s = .next { s with
      len := l, pos := 0#s.lenW, acc := 0#32, slot := 4, err := .invalidLength, errparam := .four,
      olen := 0#s.lenW, events := s.events ++ [.cmd l.toNat, .status .invalidLength], trace := rest })

/-- Inside a call every step with `rst = 0` either is a WAIT that changes no register, when the pin its phase looks
at is 0, or performs one of the operations the call still owes (R212). -/
def Obligations.EachStepWaitsOrDoesOneOperationOfTheCall : Prop :=
  ∀ s : State, RegInv s → s.phase ≠ .idle → s.line.rst = false →
    ∃ t, step s = .next t ∧
      (progresses s.phase s.line = true → t.work + 1 = s.work) ∧
      (progresses s.phase s.line = false → t = s.advance)

/-- Every call ends if the environment is fair (R213): with `rst` at 0, once the environment has let the call
progress in as many steps as operations it owes, the block has been back in IDLE. -/
def Obligations.FairEnvironmentEndsTheCall : Prop :=
  ∀ (n : Nat) (s : State), RegInv s → s.phase ≠ .idle → resetFree n s → s.work ≤ progressSteps n s →
    ∃ m t, m ≤ n ∧ runSteps m s = .next t ∧ t.phase = .idle

/-- R224: a RESET inside a call abandons it: no status is recorded, the characters already recorded stay, and they
are the prefix of the encoding of the whole groups taken that the phase gives. -/
def Obligations.ResetInsideACallLeavesAPrefix : Prop :=
  ∀ s : State, CallInv s → s.phase ≠ .idle → s.line.rst = true →
    let j := s.pos.toNat / 4
    let sent := match s.phase with
      | .idle => 0
      | .assemble => 5 * j
      | .convert => 5 * (j - 1)
      | .emit => 5 * (j - 1) + s.slot.val
      | .report => 5 * j
    (∃ t, step s = .next t ∧ t = s.advance.resetRegisters.record .reset ∧ t.phase = .idle ∧
      t.events = s.events ++ [.reset] ∧ callOpen t.events = false) ∧
    (∀ e ∈ callTail s.events, e.endsCall = false) ∧
    callChars s.events = (encGroups ((callBytes s.events).take (4 * j))).take sent ∧
    (callChars s.events).length = sent

/-! ## The transform -/

/-- R134: the value of a group is in `0 .. 2^32-1`, every such number being reached by exactly one quadruple. -/
def Obligations.GroupValueIsABijection : Prop :=
  (∀ b0 b1 b2 b3 : Byte, groupVal b0 b1 b2 b3 < 2 ^ 32 ∧
    groupVal b0 b1 b2 b3 = b0.toNat * 2 ^ 24 + b1.toNat * 2 ^ 16 + b2.toNat * 2 ^ 8 + b3.toNat) ∧
  ∀ v : Nat, v < 2 ^ 32 → ∃! q : Byte × Byte × Byte × Byte, groupVal q.1 q.2.1 q.2.2.1 q.2.2.2 = v

/-- R135: the five iterations of the digit loop, whatever the value is, place the character of digit `d_i` at
position `i`, and leave the running value 0. -/
def Obligations.DigitLoopPlacesTheFiveDigits : Prop :=
  (∀ v : Nat, digitLoop 5 v [] = (List.finRange 5).map fun k => alpha (digitAt v k)) ∧
  (∀ v : Nat, v < 2 ^ 32 → runningValue 5 v = 0) ∧
  (∀ b0 b1 b2 b3 : Byte, encGroup b0 b1 b2 b3 = digitLoop 5 (groupVal b0 b1 b2 b3) [])

/-- After `k` iterations the running value is `v div 85^k`, within the bounds the spec works out (R136). -/
def Obligations.RunningValueIsExhausted : Prop :=
  (∀ k v : Nat, runningValue k v = v / 85 ^ k) ∧
  ∀ v : Nat, v < 2 ^ 32 → runningValue 1 v ≤ 50529027 ∧ runningValue 2 v ≤ 594459 ∧
    runningValue 3 v ≤ 6993 ∧ runningValue 4 v ≤ 82 ∧ runningValue 5 v = 0

/-- A value is written uniquely by its five digits (R96); its first digit is at most 82, so the first character of
a group is never the dollar or the number sign (R137, the spec's own inference). -/
def Obligations.DigitsWriteTheValueUniquely : Prop :=
  (∀ v : Nat, v < 2 ^ 32 →
    v = (digitAt v 0).val * 85 ^ 4 + (digitAt v 1).val * 85 ^ 3 + (digitAt v 2).val * 85 ^ 2 +
      (digitAt v 3).val * 85 + (digitAt v 4).val ∧ (digitAt v 0).val ≤ 82 ∧
      alpha (digitAt v 0) ≠ 0x24#8 ∧ alpha (digitAt v 0) ≠ 0x23#8) ∧
  ∀ d e : Fin 5 → Fin 85,
    (d 0).val * 85 ^ 4 + (d 1).val * 85 ^ 3 + (d 2).val * 85 ^ 2 + (d 3).val * 85 + (d 4).val =
      (e 0).val * 85 ^ 4 + (e 1).val * 85 ^ 3 + (e 2).val * 85 ^ 2 + (e 3).val * 85 + (e 4).val → d = e

/-- R132, R133, with check 1 before them (R131): the checks of `encode` in order, and the empty source, at every
LEN_W. -/
def Obligations.EncodeMakesTheChecksInOrder : Prop :=
  ∀ (w : Nat) (source : List Byte),
    (source.length > (2 ^ w - 1) / 5 → encodeBytes w source = .tooLong) ∧
    (source.length ≤ (2 ^ w - 1) / 5 → source.length % 4 ≠ 0 → encodeBytes w source = .invalidLength 4) ∧
    encodeBytes w [] = .ok []

/-- R138, R139: for a length that passes the checks, the result has exactly `L + L/4` characters and character
`5g + i` is that of digit `d_i` of group `g`. -/
def Obligations.EncodeConcatenatesTheGroups : Prop :=
  ∀ (w : Nat) (source : List Byte), source.length ≤ Config.lenLimit w → source.length % 4 = 0 →
    ∃ chars, encodeBytes w source = .ok chars ∧ chars.length = source.length + source.length / 4 ∧
      ∀ (g : Nat) (k : Fin 5) (b0 b1 b2 b3 : Byte), source[4 * g]? = some b0 → source[4 * g + 1]? = some b1 →
        source[4 * g + 2]? = some b2 → source[4 * g + 3]? = some b3 →
        chars[5 * g + k.val]? = some (alpha (digitAt (groupVal b0 b1 b2 b3) k))

/-- R140: every character of a result is one of the alphabet. -/
def Obligations.EncodeStaysInTheAlphabet : Prop :=
  ∀ (w : Nat) (source chars : List Byte), encodeBytes w source = .ok chars → ∀ c ∈ chars, InAlphabet c

/-- R142: the groups are encoded independently of their neighbours. -/
def Obligations.EncodeOfAConcatenation : Prop :=
  ∀ (w : Nat) (a b : List Byte), a.length % 4 = 0 → b.length % 4 = 0 →
    (a ++ b).length ≤ Config.lenLimit w →
    ∃ x y, encodeBytes w a = .ok x ∧ encodeBytes w b = .ok y ∧ encodeBytes w (a ++ b) = .ok (x ++ y)

/-- On valid inputs `encode` is injective (the spec's own inference, R143): different sources give different
strings. -/
def Obligations.EncodeIsInjective : Prop :=
  ∀ (w : Nat) (a b chars : List Byte), encodeBytes w a = .ok chars → encodeBytes w b = .ok chars → a = b

/-- The structure of the alphabet table (the spec's own inference, R98): the three ranges, the 23 codes with no
pattern, no code twice, every code printable with bit 7 clear, and the ten printable codes that are missing. -/
def Obligations.AlphabetTableStructure : Prop :=
  (∀ d : Fin 85,
    (d.val ≤ 9 → (alpha d).toNat = 0x30 + d.val) ∧
    (10 ≤ d.val → d.val ≤ 35 → (alpha d).toNat = 0x61 + (d.val - 10)) ∧
    (36 ≤ d.val → d.val ≤ 61 → (alpha d).toNat = 0x41 + (d.val - 36)) ∧
    0x21 ≤ (alpha d).toNat ∧ (alpha d).toNat ≤ 0x7D ∧ (alpha d).getLsbD 7 = false) ∧
  romTable.drop 62 = [0x2E#8, 0x2D#8, 0x3A#8, 0x2B#8, 0x3D#8, 0x5E#8, 0x21#8, 0x2F#8, 0x2A#8, 0x3F#8, 0x26#8,
    0x3C#8, 0x3E#8, 0x28#8, 0x29#8, 0x5B#8, 0x5D#8, 0x7B#8, 0x7D#8, 0x40#8, 0x25#8, 0x24#8, 0x23#8] ∧
  (∀ d e : Fin 85, alpha d = alpha e → d = e) ∧
  (∀ n : Nat, 0x20 ≤ n → n ≤ 0x7E → (¬ InAlphabet (BitVec.ofNat 8 n) ↔
    n ∈ [0x22, 0x27, 0x2C, 0x3B, 0x5C, 0x5F, 0x60, 0x7C, 0x7E, 0x20]))

/-- Length arithmetic (the spec's own arithmetic, R150): the two expressions of the output length agree, the slices
are the remainder and the quotient by 4, and a length within the limit leaves room for `5*L`. -/
def Obligations.LengthArithmetic : Prop :=
  (∀ n : Nat, 5 * n / 4 = n + n / 4 ∧ (n % 4 = 0 → 5 * n / 4 = 5 * (n / 4))) ∧
  (∀ (w : Nat) (l : BitVec w), (l.extractLsb' 0 2).toNat = l.toNat % 4 ∧
    (l.extractLsb' 2 (w - 2)).toNat = l.toNat / 4 ∧
    (l.toNat ≤ Config.lenLimit w → 5 * l.toNat ≤ 2 ^ w - 1 ∧
      (resultLength l).toNat = l.toNat + l.toNat / 4)) ∧
  (Config.lenLimit 32 = 858993459 ∧ Config.lenLimit 32 % 4 = 3)

/-! ## Reserved status words -/

/-- Any other status word is refused (R104 and 93_implementation_defined.md U5: "any status word other than the four";
treatment `refuse`; assumption 8): the four words with their fields, that they are all there are, that the
registers hold one of them exactly when their three numbers are one of the four, that REPORT stops by name when
they do not, and that no operation records a status that is not one of the four. -/
def Obligations.ReportRefusesAnyOtherStatusWord : Prop :=
  (∀ s : State, s.status? ≠ none ↔
    (s.err.code = 0#2 ∧ s.errparam.code = 0#3 ∧ s.olen.toNat = 0) ∨
    (s.err.code = 0#2 ∧ s.errparam.code = 0#3 ∧ ∃ l : Nat, 0 < l ∧ l ≤ Config.lenLimit s.lenW ∧ l % 4 = 0 ∧
      s.olen.toNat = l + l / 4) ∨
    (s.err.code = 1#2 ∧ s.errparam.code = 0#3 ∧ s.olen.toNat = 0) ∨
    (s.err.code = 2#2 ∧ s.errparam.code = 4#3 ∧ s.olen.toNat = 0)) ∧
  (∀ s : State, s.status? = none →
    exec .report s = .refused (.unproducedStatus s.err s.errparam s.olen.toNat)) ∧
  ∀ (i : Instr) (s t : State) (word : Status), exec i s = .next t → t.events = s.events ++ [.status word] →
    i = .report ∧ (word = .empty ∨ word = .tooLong ∨ word = .invalidLength ∨
      ∃ l : Nat, 0 < l ∧ l ≤ Config.lenLimit s.lenW ∧ l % 4 = 0 ∧ word = .success (l + l / 4))
end

