-- ==== Sys2Proof/Laws/Operands.lean ====
section
/-! SUPPORT. What each operand and flag computation gives, in natural numbers: the lemmas later proofs cite instead of
unfolding Operands.lean, Flags.lean and Rom.lean. -/

namespace Sys2Proof.Machine
open Sys2Proof

theorem shiftByte_toNat (acc : Value) (b : Byte) :
    (shiftByte acc b).toNat = acc.toNat % 2 ^ 24 * 256 + b.toNat := by
  have hb := b.isLt
  simp only [shiftByte, BitVec.toNat_append, BitVec.extractLsb'_toNat, Nat.shiftRight_zero]
  rw [← Nat.shiftLeft_add_eq_or_of_lt hb, Nat.shiftLeft_eq]

theorem groupWord_toNat (b0 b1 b2 b3 : Byte) : (groupWord b0 b1 b2 b3).toNat = groupVal b0 b1 b2 b3 := by
  have h0 := b0.isLt
  have h1 := b1.isLt
  have h2 := b2.isLt
  have h3 := b3.isLt
  simp only [groupWord, groupVal, BitVec.toNat_append]
  rw [← Nat.shiftLeft_add_eq_or_of_lt h1, ← Nat.shiftLeft_add_eq_or_of_lt h2,
    ← Nat.shiftLeft_add_eq_or_of_lt h3]
  simp only [Nat.shiftLeft_eq]
  omega

/-- Four shifts by a byte push every earlier bit out (42_assemble.md R171). -/
theorem shiftByte_four (acc : Value) (b0 b1 b2 b3 : Byte) :
    shiftByte (shiftByte (shiftByte (shiftByte acc b0) b1) b2) b3 = groupWord b0 b1 b2 b3 := by
  apply BitVec.eq_of_toNat_eq
  have h0 := b0.isLt
  have h1 := b1.isLt
  have h2 := b2.isLt
  have h3 := b3.isLt
  rw [groupWord_toNat]
  simp only [shiftByte_toNat, groupVal]
  omega

@[simp] theorem digitOf_val (acc : Value) : (digitOf acc).val = acc.toNat % 85 := rfl

theorem quotientOf_toNat (acc : Value) : (quotientOf acc).toNat = acc.toNat / 85 := by
  have := acc.isLt
  simp only [quotientOf, BitVec.toNat_ofNat]
  omega

theorem slotBefore_cases (k : Fin 5) :
    (k = 0 ∧ slotBefore k = none) ∨ ∃ j : Fin 5, slotBefore k = some j ∧ j.val + 1 = k.val := by
  revert k; decide

theorem slotAfter_cases (k : Fin 5) :
    (k = 4 ∧ slotAfter k = none) ∨ ∃ j : Fin 5, slotAfter k = some j ∧ j.val = k.val + 1 := by
  revert k; decide

theorem isGroupAligned_iff {w : Nat} (x : BitVec w) : isGroupAligned x = true ↔ x.toNat % 4 = 0 := by
  simp [isGroupAligned]

/-- Counting up without a wrap. -/
theorem toNat_add_of_lt {w : Nat} (x : BitVec w) (k : Nat) (h : x.toNat + k < 2 ^ w) :
    (x + BitVec.ofNat w k).toNat = x.toNat + k := by
  simp only [BitVec.toNat_add, BitVec.toNat_ofNat]
  rw [Nat.mod_eq_of_lt (show k < 2 ^ w by omega)]
  exact Nat.mod_eq_of_lt h

theorem lenLimit_mul (w : Nat) : 5 * Config.lenLimit w < 2 ^ w := by
  have : 0 < 2 ^ w := Nat.two_pow_pos w
  simp only [Config.lenLimit]
  omega

theorem resultLength_toNat {w : Nat} (l : BitVec w) (h : l.toNat ≤ Config.lenLimit w) :
    (resultLength l).toNat = l.toNat + l.toNat / 4 := by
  have := lenLimit_mul w
  simp only [resultLength, BitVec.toNat_add, BitVec.toNat_ushiftRight, Nat.shiftRight_eq_div_pow]
  exact Nat.mod_eq_of_lt (by omega)

theorem lengthCheck_eq_ok {w : Nat} (l : BitVec w) :
    lengthCheck l = .ok ↔ l.toNat ≤ Config.lenLimit w ∧ l.toNat % 4 = 0 := by
  simp only [lengthCheck, isGroupAligned, beq_iff_eq, gt_iff_lt]
  split_ifs <;> simp <;> omega

theorem lengthCheck_eq_tooLong {w : Nat} (l : BitVec w) :
    lengthCheck l = .tooLong ↔ Config.lenLimit w < l.toNat := by
  simp only [lengthCheck, isGroupAligned, beq_iff_eq, gt_iff_lt]
  split_ifs <;> simp <;> omega

theorem lengthCheck_eq_invalidLength {w : Nat} (l : BitVec w) :
    lengthCheck l = .invalidLength ↔ l.toNat ≤ Config.lenLimit w ∧ l.toNat % 4 ≠ 0 := by
  simp only [lengthCheck, isGroupAligned, beq_iff_eq, gt_iff_lt]
  split_ifs <;> simp <;> omega

theorem isResultLength_iff (w n : Nat) :
    isResultLength w n = true ↔ ∃ l, l ≤ Config.lenLimit w ∧ l % 4 = 0 ∧ n = l + l / 4 := by
  simp only [isResultLength, Bool.and_eq_true, beq_iff_eq, decide_eq_true_eq]
  constructor
  · rintro ⟨h, hl⟩
    exact ⟨n / 5 * 4, hl, by omega, by omega⟩
  · rintro ⟨l, hl, h, rfl⟩
    exact ⟨by omega, by omega⟩

@[simp] theorem Status.ofLength_code (n : Nat) : (Status.ofLength n).code = 0#2 := by
  simp only [Status.ofLength]
  split <;> rfl

@[simp] theorem Status.ofLength_param (n : Nat) : (Status.ofLength n).param = 0#3 := by
  simp only [Status.ofLength]
  split <;> rfl

@[simp] theorem Status.ofLength_olen (n : Nat) : (Status.ofLength n).olen = n := by
  simp only [Status.ofLength]
  split
  · exact ‹n = 0›.symm
  · rfl

/-- All that `statusOf` can answer: one of three shapes of register contents, each with its word. -/
theorem statusOf_cases {w : Nat} {err : ErrKind} {errparam : ErrParam} {olen : BitVec w} {word : Status}
    (h : statusOf err errparam olen = some word) :
    (err = .ok ∧ errparam = .zero ∧ isResultLength w olen.toNat = true ∧ word = .ofLength olen.toNat) ∨
    (err = .tooLong ∧ errparam = .zero ∧ olen.toNat = 0 ∧ word = .tooLong) ∨
    (err = .invalidLength ∧ errparam = .four ∧ olen.toNat = 0 ∧ word = .invalidLength) := by
  cases err <;> cases errparam <;> simp_all [statusOf]

/-- The word's fields are the registers' (R95). -/
theorem statusOf_fields {w : Nat} {err : ErrKind} {errparam : ErrParam} {olen : BitVec w} {word : Status}
    (h : statusOf err errparam olen = some word) :
    word.code = err.code ∧ word.param = errparam.code ∧ word.olen = olen.toNat := by
  obtain ⟨rfl, rfl, _, rfl⟩ | ⟨rfl, rfl, h0, rfl⟩ | ⟨rfl, rfl, h0, rfl⟩ := statusOf_cases h
  · simp [ErrKind.code, ErrParam.code]
  · simp [Status.code, Status.param, Status.olen, ErrKind.code, ErrParam.code, h0]
  · simp [Status.code, Status.param, Status.olen, ErrKind.code, ErrParam.code, h0]

theorem alpha_mem (d : Fin 85) : InAlphabet (alpha d) := by
  simp only [alpha, InAlphabet]
  exact List.getElem_mem _

/-- No code stands twice in the table. -/
theorem romTable_nodup : romTable.Nodup := by decide

/-- Reading the character buffer after one entry was written. -/
theorem obuf_set_get (v : Vector Byte 5) (k i : Fin 5) (x : Byte) :
    (v.set k x)[i] = if i = k then x else v[i] := by
  simp only [Fin.getElem_fin, Vector.getElem_set, Fin.ext_iff, eq_comm]

end Sys2Proof.Machine
end

