-- ==== Sys2Proof/Laws/State.lean ====
section
/-! SUPPORT. One lemma per field per shared update of the state (Machine/Ops.lean), each true by `rfl`: later proofs
rewrite with these and never unfold an update. -/

namespace Sys2Proof.Machine

/-! ### `State.advance` -/

@[simp] theorem State.advance_lenW (s : State) : s.advance.lenW = s.lenW := rfl
@[simp] theorem State.advance_phase (s : State) : s.advance.phase = s.phase := rfl
@[simp] theorem State.advance_len (s : State) : s.advance.len = s.len := rfl
@[simp] theorem State.advance_pos (s : State) : s.advance.pos = s.pos := rfl
@[simp] theorem State.advance_acc (s : State) : s.advance.acc = s.acc := rfl
@[simp] theorem State.advance_slot (s : State) : s.advance.slot = s.slot := rfl
@[simp] theorem State.advance_obuf (s : State) : s.advance.obuf = s.obuf := rfl
@[simp] theorem State.advance_err (s : State) : s.advance.err = s.err := rfl
@[simp] theorem State.advance_errparam (s : State) : s.advance.errparam = s.errparam := rfl
@[simp] theorem State.advance_olen (s : State) : s.advance.olen = s.olen := rfl
@[simp] theorem State.advance_events (s : State) : s.advance.events = s.events := rfl
@[simp] theorem State.advance_trace (s : State) : s.advance.trace = s.trace.tail := rfl
@[simp] theorem State.advance_drawn (s : State) : s.advance.drawn = (if s.trace.isEmpty then s.drawn + 1 else s.drawn) := rfl

/-! ### `State.record` -/

@[simp] theorem State.record_lenW (s : State) (e : Event) : (s.record e).lenW = s.lenW := rfl
@[simp] theorem State.record_phase (s : State) (e : Event) : (s.record e).phase = s.phase := rfl
@[simp] theorem State.record_len (s : State) (e : Event) : (s.record e).len = s.len := rfl
@[simp] theorem State.record_pos (s : State) (e : Event) : (s.record e).pos = s.pos := rfl
@[simp] theorem State.record_acc (s : State) (e : Event) : (s.record e).acc = s.acc := rfl
@[simp] theorem State.record_slot (s : State) (e : Event) : (s.record e).slot = s.slot := rfl
@[simp] theorem State.record_obuf (s : State) (e : Event) : (s.record e).obuf = s.obuf := rfl
@[simp] theorem State.record_err (s : State) (e : Event) : (s.record e).err = s.err := rfl
@[simp] theorem State.record_errparam (s : State) (e : Event) : (s.record e).errparam = s.errparam := rfl
@[simp] theorem State.record_olen (s : State) (e : Event) : (s.record e).olen = s.olen := rfl
@[simp] theorem State.record_events (s : State) (e : Event) : (s.record e).events = s.events ++ [e] := rfl
@[simp] theorem State.record_trace (s : State) (e : Event) : (s.record e).trace = s.trace := rfl
@[simp] theorem State.record_drawn (s : State) (e : Event) : (s.record e).drawn = s.drawn := rfl

/-! ### `State.raise` -/

@[simp] theorem State.raise_lenW (s : State) (k : ErrKind) (param : ErrParam) : (s.raise k param).lenW = s.lenW := rfl
@[simp] theorem State.raise_phase (s : State) (k : ErrKind) (param : ErrParam) : (s.raise k param).phase = .report := rfl
@[simp] theorem State.raise_len (s : State) (k : ErrKind) (param : ErrParam) : (s.raise k param).len = s.len := rfl
@[simp] theorem State.raise_pos (s : State) (k : ErrKind) (param : ErrParam) : (s.raise k param).pos = s.pos := rfl
@[simp] theorem State.raise_acc (s : State) (k : ErrKind) (param : ErrParam) : (s.raise k param).acc = s.acc := rfl
@[simp] theorem State.raise_slot (s : State) (k : ErrKind) (param : ErrParam) : (s.raise k param).slot = s.slot := rfl
@[simp] theorem State.raise_obuf (s : State) (k : ErrKind) (param : ErrParam) : (s.raise k param).obuf = s.obuf := rfl
@[simp] theorem State.raise_err (s : State) (k : ErrKind) (param : ErrParam) : (s.raise k param).err = k := rfl
@[simp] theorem State.raise_errparam (s : State) (k : ErrKind) (param : ErrParam) : (s.raise k param).errparam = param := rfl
@[simp] theorem State.raise_olen (s : State) (k : ErrKind) (param : ErrParam) : (s.raise k param).olen = 0#s.lenW := rfl
@[simp] theorem State.raise_events (s : State) (k : ErrKind) (param : ErrParam) : (s.raise k param).events = s.events := rfl
@[simp] theorem State.raise_trace (s : State) (k : ErrKind) (param : ErrParam) : (s.raise k param).trace = s.trace := rfl
@[simp] theorem State.raise_drawn (s : State) (k : ErrKind) (param : ErrParam) : (s.raise k param).drawn = s.drawn := rfl

/-! ### `State.handOverStatus` -/

@[simp] theorem State.handOverStatus_lenW (s : State) (word : Status) : (s.handOverStatus word).lenW = s.lenW := rfl
@[simp] theorem State.handOverStatus_phase (s : State) (word : Status) : (s.handOverStatus word).phase = .idle := rfl
@[simp] theorem State.handOverStatus_len (s : State) (word : Status) : (s.handOverStatus word).len = s.len := rfl
@[simp] theorem State.handOverStatus_pos (s : State) (word : Status) : (s.handOverStatus word).pos = s.pos := rfl
@[simp] theorem State.handOverStatus_acc (s : State) (word : Status) : (s.handOverStatus word).acc = s.acc := rfl
@[simp] theorem State.handOverStatus_slot (s : State) (word : Status) : (s.handOverStatus word).slot = s.slot := rfl
@[simp] theorem State.handOverStatus_obuf (s : State) (word : Status) : (s.handOverStatus word).obuf = s.obuf := rfl
@[simp] theorem State.handOverStatus_err (s : State) (word : Status) : (s.handOverStatus word).err = s.err := rfl
@[simp] theorem State.handOverStatus_errparam (s : State) (word : Status) : (s.handOverStatus word).errparam = s.errparam := rfl
@[simp] theorem State.handOverStatus_olen (s : State) (word : Status) : (s.handOverStatus word).olen = s.olen := rfl
@[simp] theorem State.handOverStatus_events (s : State) (word : Status) : (s.handOverStatus word).events = s.events ++ [.status word] := rfl
@[simp] theorem State.handOverStatus_trace (s : State) (word : Status) : (s.handOverStatus word).trace = s.trace := rfl
@[simp] theorem State.handOverStatus_drawn (s : State) (word : Status) : (s.handOverStatus word).drawn = s.drawn := rfl

/-! ### `State.resetRegisters` -/

@[simp] theorem State.resetRegisters_lenW (s : State) : s.resetRegisters.lenW = s.lenW := rfl
@[simp] theorem State.resetRegisters_phase (s : State) : s.resetRegisters.phase = .idle := rfl
@[simp] theorem State.resetRegisters_len (s : State) : s.resetRegisters.len = 0#s.lenW := rfl
@[simp] theorem State.resetRegisters_pos (s : State) : s.resetRegisters.pos = 0#s.lenW := rfl
@[simp] theorem State.resetRegisters_acc (s : State) : s.resetRegisters.acc = 0#32 := rfl
@[simp] theorem State.resetRegisters_slot (s : State) : s.resetRegisters.slot = 4 := rfl
@[simp] theorem State.resetRegisters_obuf (s : State) : s.resetRegisters.obuf = Vector.replicate 5 0x00#8 := rfl
@[simp] theorem State.resetRegisters_err (s : State) : s.resetRegisters.err = .ok := rfl
@[simp] theorem State.resetRegisters_errparam (s : State) : s.resetRegisters.errparam = .zero := rfl
@[simp] theorem State.resetRegisters_olen (s : State) : s.resetRegisters.olen = 0#s.lenW := rfl
@[simp] theorem State.resetRegisters_events (s : State) : s.resetRegisters.events = s.events := rfl
@[simp] theorem State.resetRegisters_trace (s : State) : s.resetRegisters.trace = s.trace := rfl
@[simp] theorem State.resetRegisters_drawn (s : State) : s.resetRegisters.drawn = s.drawn := rfl

/-! ### `State.latchLength` -/

@[simp] theorem State.latchLength_lenW (s : State) (l : BitVec s.lenW) : (s.latchLength l).lenW = s.lenW := rfl
@[simp] theorem State.latchLength_phase (s : State) (l : BitVec s.lenW) : (s.latchLength l).phase = s.phase := rfl
@[simp] theorem State.latchLength_len (s : State) (l : BitVec s.lenW) : (s.latchLength l).len = l := rfl
@[simp] theorem State.latchLength_pos (s : State) (l : BitVec s.lenW) : (s.latchLength l).pos = 0#s.lenW := rfl
@[simp] theorem State.latchLength_acc (s : State) (l : BitVec s.lenW) : (s.latchLength l).acc = 0#32 := rfl
@[simp] theorem State.latchLength_slot (s : State) (l : BitVec s.lenW) : (s.latchLength l).slot = 4 := rfl
@[simp] theorem State.latchLength_obuf (s : State) (l : BitVec s.lenW) : (s.latchLength l).obuf = s.obuf := rfl
@[simp] theorem State.latchLength_err (s : State) (l : BitVec s.lenW) : (s.latchLength l).err = s.err := rfl
@[simp] theorem State.latchLength_errparam (s : State) (l : BitVec s.lenW) : (s.latchLength l).errparam = s.errparam := rfl
@[simp] theorem State.latchLength_olen (s : State) (l : BitVec s.lenW) : (s.latchLength l).olen = s.olen := rfl
@[simp] theorem State.latchLength_events (s : State) (l : BitVec s.lenW) : (s.latchLength l).events = s.events := rfl
@[simp] theorem State.latchLength_trace (s : State) (l : BitVec s.lenW) : (s.latchLength l).trace = s.trace := rfl
@[simp] theorem State.latchLength_drawn (s : State) (l : BitVec s.lenW) : (s.latchLength l).drawn = s.drawn := rfl

/-! ### the coming line -/

theorem State.line_cons {s : State} {p : Pins} {ps : List Pins} (h : s.trace = p :: ps) : s.line = p := by
  simp [State.line, h]

theorem State.line_nil {s : State} (h : s.trace = []) : s.line = Config.freePins s.drawn := by
  simp [State.line, h]

theorem State.advance_cons {s : State} {p : Pins} {ps : List Pins} (h : s.trace = p :: ps) :
    s.advance = { s with trace := ps } := by
  simp [State.advance, h]

end Sys2Proof.Machine
end

