-- ==== Sys2Proof/Laws/Exec.lean ====
section
/-! SUPPORT. Everything each meaning can do, once: the four paths of ACCEPT, and SHIFTIN, DIVSTEP and EMIT as one
record each, and the two answers of REPORT. The other meanings are one line and need no lemma. -/

namespace Sys2Proof.Machine
open Sys2Proof

theorem execAccept_tooLong {cmdLen : Nat} {s : State}
    (h : Config.lenLimit s.lenW < (BitVec.ofNat s.lenW cmdLen).toNat) :
    execAccept cmdLen s = .next { s with
      len := BitVec.ofNat s.lenW cmdLen, pos := 0#s.lenW, acc := 0#32, slot := 4, err := .tooLong,
      errparam := .zero, olen := 0#s.lenW, phase := .report,
      events := s.events ++ [.cmd (BitVec.ofNat s.lenW cmdLen).toNat] } := by
  have hk := (lengthCheck_eq_tooLong _).2 h
  simp only [execAccept, hk]
  rfl

theorem execAccept_invalidLength {cmdLen : Nat} {s : State}
    (h : (BitVec.ofNat s.lenW cmdLen).toNat ≤ Config.lenLimit s.lenW)
    (h4 : (BitVec.ofNat s.lenW cmdLen).toNat % 4 ≠ 0) :
    execAccept cmdLen s = .next { s with
      len := BitVec.ofNat s.lenW cmdLen, pos := 0#s.lenW, acc := 0#32, slot := 4, err := .invalidLength,
      errparam := .four, olen := 0#s.lenW, phase := .report,
      events := s.events ++ [.cmd (BitVec.ofNat s.lenW cmdLen).toNat] } := by
  have hk := (lengthCheck_eq_invalidLength _).2 ⟨h, h4⟩
  simp only [execAccept, hk]
  rfl

theorem execAccept_empty {cmdLen : Nat} {s : State} (h : (BitVec.ofNat s.lenW cmdLen).toNat = 0) :
    execAccept cmdLen s = .next { s with
      len := BitVec.ofNat s.lenW cmdLen, pos := 0#s.lenW, acc := 0#32, slot := 4, err := .ok,
      errparam := .zero, olen := 0#s.lenW, phase := .report,
      events := s.events ++ [.cmd (BitVec.ofNat s.lenW cmdLen).toNat] } := by
  have hk := (lengthCheck_eq_ok (BitVec.ofNat s.lenW cmdLen)).2 ⟨by omega, by omega⟩
  simp only [execAccept, hk, h, if_true]
  rfl

theorem execAccept_start {cmdLen : Nat} {s : State}
    (h : (BitVec.ofNat s.lenW cmdLen).toNat ≤ Config.lenLimit s.lenW)
    (h4 : (BitVec.ofNat s.lenW cmdLen).toNat % 4 = 0) (h0 : (BitVec.ofNat s.lenW cmdLen).toNat ≠ 0) :
    execAccept cmdLen s = .next { s with
      len := BitVec.ofNat s.lenW cmdLen, pos := 0#s.lenW, acc := 0#32, slot := 4, err := .ok,
      errparam := .zero, olen := resultLength (BitVec.ofNat s.lenW cmdLen), phase := .assemble,
      events := s.events ++ [.cmd (BitVec.ofNat s.lenW cmdLen).toNat] } := by
  have hk := (lengthCheck_eq_ok _).2 ⟨h, h4⟩
  simp only [execAccept, hk, if_neg h0]
  rfl

/-- The inversion of ACCEPT: a failure of either kind, the empty call, or the start of a call. -/
theorem execAccept_cases {cmdLen : Nat} {s t : State} (h : execAccept cmdLen s = .next t) :
    (∃ k, lengthCheck (BitVec.ofNat s.lenW cmdLen) = k ∧ k ≠ .ok ∧
      t = ((s.latchLength (BitVec.ofNat s.lenW cmdLen)).record
        (.cmd (BitVec.ofNat s.lenW cmdLen).toNat)).raise k k.param) ∨
    (lengthCheck (BitVec.ofNat s.lenW cmdLen) = .ok ∧ (BitVec.ofNat s.lenW cmdLen).toNat = 0 ∧
      t = { (s.latchLength (BitVec.ofNat s.lenW cmdLen)).record
              (.cmd (BitVec.ofNat s.lenW cmdLen).toNat) with
            err := .ok, errparam := .zero, olen := 0#s.lenW, phase := .report }) ∨
    (lengthCheck (BitVec.ofNat s.lenW cmdLen) = .ok ∧ (BitVec.ofNat s.lenW cmdLen).toNat ≠ 0 ∧
      t = { (s.latchLength (BitVec.ofNat s.lenW cmdLen)).record
              (.cmd (BitVec.ofNat s.lenW cmdLen).toNat) with
            err := .ok, errparam := .zero, olen := resultLength (BitVec.ofNat s.lenW cmdLen),
            phase := .assemble }) := by
  simp only [execAccept] at h
  split at h
  · rename_i hk
    exact .inl ⟨_, hk, by simp, (Host.Outcome.next.inj h).symm⟩
  · rename_i hk
    exact .inl ⟨_, hk, by simp, (Host.Outcome.next.inj h).symm⟩
  · rename_i hk
    split at h
    · exact .inr (.inl ⟨hk, ‹_›, by simpa using h.symm⟩)
    · exact .inr (.inr ⟨hk, ‹_›, by simpa using h.symm⟩)

theorem execShiftin_eq (b : Byte) (s : State) :
    execShiftin b s = .next { s with
      acc := shiftByte s.acc b
      pos := s.pos + 1#s.lenW
      events := s.events ++ [.byte b]
      phase := if isGroupAligned (s.pos + 1#s.lenW) then .convert else s.phase
      slot := if isGroupAligned (s.pos + 1#s.lenW) then 4 else s.slot } := by
  simp only [execShiftin]
  split <;> rfl

theorem execDivstep_eq (s : State) :
    execDivstep s = .next { s with
      obuf := s.obuf.set s.slot (alpha (digitOf s.acc))
      acc := quotientOf s.acc
      phase := if s.slot = 0 then .emit else s.phase
      slot := (slotBefore s.slot).getD 0 } := by
  rcases slotBefore_cases s.slot with ⟨h0, h⟩ | ⟨j, h, hj⟩
  · simp only [execDivstep, h0]
    rfl
  · have : s.slot ≠ 0 := by
      intro h0
      simp [h0] at hj
    simp [execDivstep, h, this]

theorem execEmit_eq (s : State) :
    execEmit s = .next { s with
      events := s.events ++ [.char s.obuf[s.slot]]
      phase := if s.slot = 4 then (if s.pos = s.len then .report else .assemble) else s.phase
      slot := (slotAfter s.slot).getD 4 } := by
  rcases slotAfter_cases s.slot with ⟨h0, h⟩ | ⟨j, h, hj⟩
  · simp only [execEmit, h0, State.record]
    rfl
  · have : s.slot ≠ 4 := by
      intro h0
      simp [h0] at hj
      omega
    simp [execEmit, h, this, State.record]

theorem execReport_some {s : State} {word : Status} (h : s.status? = some word) :
    execReport s = .next (s.handOverStatus word) := by
  simp only [execReport, h]

theorem execReport_none {s : State} (h : s.status? = none) :
    execReport s = .refused (.unproducedStatus s.err s.errparam s.olen.toNat) := by
  simp only [execReport, h]

/-- The inversion of REPORT: it goes on with one of the four status words. -/
theorem execReport_cases {s t : State} (h : execReport s = .next t) :
    ∃ word, s.status? = some word ∧ t = s.handOverStatus word := by
  cases hw : s.status? with
  | some word =>
    rw [execReport_some hw] at h
    exact ⟨word, rfl, (Host.Outcome.next.inj h).symm⟩
  | none =>
    rw [execReport_none hw] at h
    cases h

end Sys2Proof.Machine
end

