-- ==== Sys2Proof/Laws/PerInstr.lean ====
section
/-! SUPPORT. The family EncodeRoundTrip: one lemma per operation, that the selector word and data pins the encoder
writes for it, at any LEN_W, decode to it again. -/

namespace Sys2Proof.Laws.EncodeRoundTrip
open Sys2Proof

/-- At every LEN_W at which the operation is well formed, what the encoder writes decodes to it. -/
def Statement (i : Instr) : Prop := ∀ w : Nat, i.wf w = true → decode (encode w i) = .instr i

theorem reset : Statement .reset := by
  intro w _
  simp [decode, encode, tableRows, selects, maskOf, matchOf]

theorem accept (cmdLen : Nat) : Statement (.accept cmdLen) := by
  intro w h
  have hl : cmdLen % 2 ^ w = cmdLen := Nat.mod_eq_of_lt (by simpa [Instr.wf] using h)
  simp [decode, encode, tableRows, selects, maskOf, matchOf, hl]

theorem waitCmd : Statement .waitCmd := by
  intro w _
  simp [decode, encode, tableRows, selects, maskOf, matchOf]

theorem shiftin (inData : Byte) : Statement (.shiftin inData) := by
  intro w _
  simp [decode, encode, tableRows, selects, maskOf, matchOf]

theorem waitByte : Statement .waitByte := by
  intro w _
  simp [decode, encode, tableRows, selects, maskOf, matchOf]

theorem divstep : Statement .divstep := by
  intro w _
  simp [decode, encode, tableRows, selects, maskOf, matchOf]

theorem emit : Statement .emit := by
  intro w _
  simp [decode, encode, tableRows, selects, maskOf, matchOf]

theorem waitSink : Statement .waitSink := by
  intro w _
  simp [decode, encode, tableRows, selects, maskOf, matchOf]

theorem report : Statement .report := by
  intro w _
  simp [decode, encode, tableRows, selects, maskOf, matchOf]

theorem waitAck : Statement .waitAck := by
  intro w _
  simp [decode, encode, tableRows, selects, maskOf, matchOf]

end Sys2Proof.Laws.EncodeRoundTrip
end

