-- ==== Sys2Proof/Laws/Step.lean ====
section
/-! SUPPORT. What a step does, by phase and pin, and the one case analysis over a step that the preservation proofs
share. -/

namespace Sys2Proof.Machine
open Sys2Proof

/-- The operation a step performs, written by phase and pin (the "selected when" column of R100). -/
def selectedOp (w : Nat) (ph : Phase) (p : Pins) : Instr :=
  if p.rst then .reset else
  match ph with
  | .idle => if p.cmdValid then .accept (BitVec.ofNat w p.cmdLen).toNat else .waitCmd
  | .assemble => if p.inValid then .shiftin p.inData else .waitByte
  | .convert => .divstep
  | .emit => if p.outReady then .emit else .waitSink
  | .report => if p.stReady then .report else .waitAck

theorem decode_sampleWord (w : Nat) (ph : Phase) (p : Pins) :
    decode (sampleWord w ph p) = .instr (selectedOp w ph p) := by
  obtain ⟨rst, cmdValid, cmdLen, inValid, inData, outReady, stReady⟩ := p
  cases rst <;> cases ph <;> cases cmdValid <;> cases inValid <;> cases outReady <;> cases stReady <;>
    simp [decode, sampleWord, tableRows, selects, maskOf, matchOf, selector, Phase.code, selectedOp]

theorem step_eq (s : State) : step s = exec (selectedOp s.lenW s.phase s.line) s.advance := by
  simp only [step, State.inWord, decode_sampleWord]

theorem step_reset {s : State} (h : s.line.rst = true) : step s = exec .reset s.advance := by
  rw [step_eq]
  unfold selectedOp
  rw [if_pos h]

theorem step_idle {s : State} (h : s.line.rst = false) (hp : s.phase = .idle) :
    step s = if s.line.cmdValid then execAccept (s.line.cmdLen % 2 ^ s.lenW) s.advance
      else .next s.advance := by
  rw [step_eq]
  unfold selectedOp
  simp only [h, hp, Bool.false_eq_true, if_false, BitVec.toNat_ofNat]
  split <;> rfl

theorem step_assemble {s : State} (h : s.line.rst = false) (hp : s.phase = .assemble) :
    step s = if s.line.inValid then execShiftin s.line.inData s.advance else .next s.advance := by
  rw [step_eq]
  unfold selectedOp
  simp only [h, hp, Bool.false_eq_true, if_false]
  split <;> rfl

theorem step_convert {s : State} (h : s.line.rst = false) (hp : s.phase = .convert) :
    step s = execDivstep s.advance := by
  rw [step_eq]
  unfold selectedOp
  simp only [h, hp, Bool.false_eq_true, if_false]
  rfl

theorem step_emit {s : State} (h : s.line.rst = false) (hp : s.phase = .emit) :
    step s = if s.line.outReady then execEmit s.advance else .next s.advance := by
  rw [step_eq]
  unfold selectedOp
  simp only [h, hp, Bool.false_eq_true, if_false]
  split <;> rfl

theorem step_report {s : State} (h : s.line.rst = false) (hp : s.phase = .report) :
    step s = if s.line.stReady then execReport s.advance else .next s.advance := by
  rw [step_eq]
  unfold selectedOp
  simp only [h, hp, Bool.false_eq_true, if_false]
  split <;> rfl

/-- The case analysis over a step, once: what the using up of a line and each of the six operations that write
something keep, every step keeps. -/
theorem step_keeps {P : State → Prop} (hadvance : ∀ s, P s → P s.advance)
    (hreset : ∀ s, P s → P (s.resetRegisters.record .reset))
    (haccept : ∀ s cmdLen t, P s → s.phase = .idle → execAccept cmdLen s = .next t → P t)
    (hshiftin : ∀ s b t, P s → s.phase = .assemble → execShiftin b s = .next t → P t)
    (hdivstep : ∀ s t, P s → s.phase = .convert → execDivstep s = .next t → P t)
    (hemit : ∀ s t, P s → s.phase = .emit → execEmit s = .next t → P t)
    (hreport : ∀ s word, P s → s.phase = .report → s.status? = some word → P (s.handOverStatus word))
    {s t : State} (hs : P s) (h : step s = .next t) : P t := by
  have ha := hadvance s hs
  have hp : s.advance.phase = s.phase := rfl
  cases hr : s.line.rst with
  | true =>
    rw [step_reset hr] at h
    exact Host.Outcome.next.inj h ▸ hreset _ ha
  | false =>
    cases hph : s.phase with
    | idle =>
      rw [step_idle hr hph] at h
      split at h
      · exact haccept _ _ _ ha (hp.trans hph) h
      · exact Host.Outcome.next.inj h ▸ ha
    | assemble =>
      rw [step_assemble hr hph] at h
      split at h
      · exact hshiftin _ _ _ ha (hp.trans hph) h
      · exact Host.Outcome.next.inj h ▸ ha
    | convert =>
      rw [step_convert hr hph] at h
      exact hdivstep _ _ ha (hp.trans hph) h
    | emit =>
      rw [step_emit hr hph] at h
      split at h
      · exact hemit _ _ ha (hp.trans hph) h
      · exact Host.Outcome.next.inj h ▸ ha
    | report =>
      rw [step_report hr hph] at h
      split at h
      · obtain ⟨word, hw, rfl⟩ := execReport_cases h
        exact hreport _ _ ha (hp.trans hph) hw
      · exact Host.Outcome.next.inj h ▸ ha

end Sys2Proof.Machine
end

