-- ==== Sys2Proof/Laws/Run.lean ====
section
/-! SUPPORT. The status word in REPORT, composing runs of several steps, and carrying an invariant along one. -/

namespace Sys2Proof.Machine
open Sys2Proof

/-- In REPORT the register invariant leaves only the status words of R95. -/
theorem RegInv.status?_eq {s : State} (h : RegInv s) (hp : s.phase = .report) :
    s.status? = some (match s.err with
      | .ok => Status.ofLength s.olen.toNat
      | .tooLong => .tooLong
      | .invalidLength => .invalidLength) := by
  have hf := h.flags
  have hs := h.success hp
  have hn := h.failure hp
  simp only [State.status?]
  cases he : s.err with
  | ok =>
    obtain ⟨_, h4, hl, ho⟩ := hs he
    have : isResultLength s.lenW s.olen.toNat = true := (isResultLength_iff _ _).2 ⟨_, hl, h4, ho⟩
    simp [statusOf, hf, he, ErrKind.param, this]
  | tooLong => simp [statusOf, hf, he, ErrKind.param, hn]
  | invalidLength => simp [statusOf, hf, he, ErrKind.param, hn]

theorem RegInv.reportable {s : State} (h : RegInv s) : s.reportable := by
  intro hp
  rw [h.status?_eq hp]
  exact Option.some_ne_none _

theorem run_zero (s : State) : runSteps 0 s = .next s := rfl

theorem run_succ {n : Nat} {s t : State} (h : step s = .next t) : runSteps (n + 1) s = runSteps n t := by
  have h' : Sys2Proof.core.step s = .next t := h
  simp only [runSteps, Host.Core.run]
  rw [h']

theorem run_succ_inv {n : Nat} {s t : State} (h : runSteps (n + 1) s = .next t) :
    ∃ u, step s = .next u ∧ runSteps n u = .next t := by
  cases hs : step s with
  | next u => exact ⟨u, rfl, by rw [← h, run_succ hs]⟩
  | fault r => exact nomatch r
  | refused r =>
    have h' : Sys2Proof.core.step s = .refused r := hs
    simp only [runSteps, Host.Core.run] at h
    rw [h'] at h
    cases h

theorem run_add {m n : Nat} {s t : State} (h : runSteps m s = .next t) :
    runSteps (m + n) s = runSteps n t := by
  induction m generalizing s with
  | zero =>
    rw [Nat.zero_add]
    cases h
    rfl
  | succ m ih =>
    rw [Nat.succ_add]
    obtain ⟨u, h1, h2⟩ := run_succ_inv h
    rw [run_succ h1, ih h2]

/-- The last step of a run. -/
theorem run_last {n : Nat} {s t : State} (h : runSteps (n + 1) s = .next t) :
    ∃ u, runSteps n s = .next u ∧ step u = .next t := by
  induction n generalizing s with
  | zero =>
    obtain ⟨u, h1, h2⟩ := run_succ_inv h
    cases h2
    exact ⟨s, rfl, h1⟩
  | succ n ih =>
    obtain ⟨v, h1, h2⟩ := run_succ_inv h
    obtain ⟨u, h3, h4⟩ := ih h2
    exact ⟨u, by rw [run_succ h1, h3], h4⟩

/-- The induction of every safety claim: what each step keeps, a run keeps. -/
theorem run_keeps {P : State → Prop} (hk : ∀ s t, P s → step s = .next t → P t) {n : Nat} {s t : State}
    (hs : P s) (h : runSteps n s = .next t) : P t := by
  induction n generalizing t with
  | zero =>
    cases h
    exact hs
  | succ n ih =>
    obtain ⟨u, h1, h2⟩ := run_last h
    exact hk _ _ (ih h1) h2

/-- One step of SHIFTIN within a run. -/
theorem run_shiftin (n : Nat) {s : State} {p : Pins} {ps : List Pins} (ht : s.trace = p :: ps)
    (hr : p.rst = false) (hv : p.inValid = true) (hp : s.phase = .assemble) :
    runSteps (n + 1) s = runSteps n { s with
      acc := shiftByte s.acc p.inData
      pos := s.pos + 1#s.lenW
      events := s.events ++ [.byte p.inData]
      phase := if isGroupAligned (s.pos + 1#s.lenW) then .convert else s.phase
      slot := if isGroupAligned (s.pos + 1#s.lenW) then 4 else s.slot
      trace := ps } := by
  refine run_succ ?_
  rw [step_assemble (by rw [State.line_cons ht]; exact hr) hp, State.line_cons ht, if_pos hv,
    execShiftin_eq, State.advance_cons ht]

/-- One step of DIVSTEP within a run. -/
theorem run_divstep (n : Nat) {s : State} {p : Pins} {ps : List Pins} (ht : s.trace = p :: ps)
    (hr : p.rst = false) (hp : s.phase = .convert) :
    runSteps (n + 1) s = runSteps n { s with
      obuf := s.obuf.set s.slot (alpha (digitOf s.acc))
      acc := quotientOf s.acc
      phase := if s.slot = 0 then .emit else s.phase
      slot := (slotBefore s.slot).getD 0
      trace := ps } := by
  refine run_succ ?_
  rw [step_convert (by rw [State.line_cons ht]; exact hr) hp, State.advance_cons ht, execDivstep_eq]

/-- One step of EMIT within a run. -/
theorem run_emit (n : Nat) {s : State} {p : Pins} {ps : List Pins} (ht : s.trace = p :: ps)
    (hr : p.rst = false) (hv : p.outReady = true) (hp : s.phase = .emit) :
    runSteps (n + 1) s = runSteps n { s with
      events := s.events ++ [.char s.obuf[s.slot]]
      phase := if s.slot = 4 then (if s.pos = s.len then .report else .assemble) else s.phase
      slot := (slotAfter s.slot).getD 4
      trace := ps } := by
  refine run_succ ?_
  rw [step_emit (by rw [State.line_cons ht]; exact hr) hp, State.line_cons ht, if_pos hv, execEmit_eq,
    State.advance_cons ht]

end Sys2Proof.Machine
end

