-- ==== Sys2Proof/Laws/Transform.lean ====
section
/-! SUPPORT. The transform and the event lists of whole groups: group by group, and over a concatenation. -/

namespace Sys2Proof.Machine
open Sys2Proof

/-- The closed form of 40_transform.md R137. -/
theorem encGroup_eq (b0 b1 b2 b3 : Byte) :
    encGroup b0 b1 b2 b3 = (List.finRange 5).map fun k => alpha (digitAt (groupVal b0 b1 b2 b3) k) := by
  simp [encGroup, digitLoop, lastDigitChar, digitAt, List.finRange_succ, Nat.div_div_eq_div_mul]

@[simp] theorem encGroup_length (b0 b1 b2 b3 : Byte) : (encGroup b0 b1 b2 b3).length = 5 := by
  simp [encGroup_eq]

theorem encGroups_append : ∀ (a b : List Byte), a.length % 4 = 0 →
    encGroups (a ++ b) = encGroups a ++ encGroups b
  | [], b, _ => by simp [encGroups]
  | [_], _, h | [_, _], _, h | [_, _, _], _, h => by simp at h
  | b0 :: b1 :: b2 :: b3 :: rest, b, h => by
    have := encGroups_append rest b (by simp at h; omega)
    simp [encGroups, this]

theorem encGroups_length : ∀ a : List Byte, a.length % 4 = 0 → (encGroups a).length = 5 * (a.length / 4)
  | [], _ => by simp [encGroups]
  | [_], h | [_, _], h | [_, _, _], h => by simp at h
  | b0 :: b1 :: b2 :: b3 :: rest, h => by
    have := encGroups_length rest (by simp at h; omega)
    simp [encGroups, this]
    omega

theorem encodeBytes_ok (w : Nat) (a : List Byte) (h : a.length ≤ Config.lenLimit w) (h4 : a.length % 4 = 0) :
    encodeBytes w a = .ok (encGroups a) := by
  simp only [encodeBytes, gt_iff_lt, Nat.not_lt_of_le h, if_false, h4, ne_eq, not_true_eq_false]
  split
  · have : a = [] := by simpa using ‹a.length = 0›
    subst this
    simp [encGroups]
  · rfl

theorem groupEvents_append : ∀ (a b : List Byte), a.length % 4 = 0 →
    groupEvents (a ++ b) = groupEvents a ++ groupEvents b
  | [], b, _ => by simp [groupEvents]
  | [_], _, h | [_, _], _, h | [_, _, _], _, h => by simp at h
  | b0 :: b1 :: b2 :: b3 :: rest, b, h => by
    have := groupEvents_append rest b (by simp at h; omega)
    simp [groupEvents, this]

@[simp] theorem bytesOf_append (a b : List Event) : bytesOf (a ++ b) = bytesOf a ++ bytesOf b := by
  simp [bytesOf]

@[simp] theorem charsOf_append (a b : List Event) : charsOf (a ++ b) = charsOf a ++ charsOf b := by
  simp [charsOf]

@[simp] theorem bytesOf_map_byte (l : List Byte) : bytesOf (l.map Event.byte) = l := by
  induction l <;> simp_all [bytesOf, Event.byte?]

@[simp] theorem bytesOf_map_char (l : List Byte) : bytesOf (l.map Event.char) = [] := by
  induction l <;> simp_all [bytesOf, Event.byte?]

@[simp] theorem charsOf_map_byte (l : List Byte) : charsOf (l.map Event.byte) = [] := by
  induction l <;> simp_all [charsOf, Event.char?]

@[simp] theorem charsOf_map_char (l : List Byte) : charsOf (l.map Event.char) = l := by
  induction l <;> simp_all [charsOf, Event.char?]

theorem charsOf_groupEvents : ∀ a : List Byte, charsOf (groupEvents a) = encGroups a
  | [] | [_] | [_, _] | [_, _, _] => by simp [groupEvents, encGroups, charsOf]
  | b0 :: b1 :: b2 :: b3 :: rest => by
    have := charsOf_groupEvents rest
    have h4 : charsOf [.byte b0, .byte b1, .byte b2, .byte b3] = [] := charsOf_map_byte [b0, b1, b2, b3]
    simp only [groupEvents, encGroups, charsOf_append, charsOf_map_char, h4, this, List.nil_append]

theorem bytesVal_four (b0 b1 b2 b3 : Byte) : bytesVal [b0, b1, b2, b3] = groupVal b0 b1 b2 b3 := by
  simp only [bytesVal, groupVal, List.foldl]
  omega

theorem callTail_snoc (es : List Event) (e : Event) :
    callTail (es ++ [e]) = tailStep (callTail es) e := by
  simp [callTail]

@[simp] theorem callBytes_snoc_byte (es : List Event) (b : Byte) :
    callBytes (es ++ [.byte b]) = callBytes es ++ [b] := by
  simp [callBytes, bytesOf, callTail_snoc, tailStep, Event.byte?]

@[simp] theorem callBytes_snoc_char (es : List Event) (c : Byte) :
    callBytes (es ++ [.char c]) = callBytes es := by
  simp [callBytes, bytesOf, callTail_snoc, tailStep, Event.byte?]

end Sys2Proof.Machine
end

