-- ==== Sys2Proof/Tests/Slice0.lean ====
section
/-! SUPPORT. The model's own tests: the WellFormed smoke, selector words written out from 30_encoding.md R100, the
alphabet's code list (R97), one step of each operation from the vectors of 95_test_vectors.md, and for every
obligation with hypotheses a concrete state that meets them. -/

namespace Sys2Proof.Tests
open Sys2Proof Sys2Proof.Machine

/-- The next state of an outcome, if it is one. -/
def nextOf (o : Host.Outcome State Fault Refusal) : Option State :=
  match o with
  | .next t => some t
  | .fault _ | .refused _ => none

/-- A state in the notation of 95_test_vectors.md, `phase len pos acc slot obuf err errparam olen`, with its history
and its coming lines. -/
def st (w : Nat) (phase : Phase) (len pos : Nat) (acc : Value) (slot : Fin 5) (obuf : Vector Byte 5)
    (err : ErrKind) (errparam : ErrParam) (olen : Nat) (events : List Event) (trace : List Pins) : State :=
  { lenW := w, phase := phase, len := BitVec.ofNat w len, pos := BitVec.ofNat w pos, acc := acc, slot := slot,
    obuf := obuf, err := err, errparam := errparam, olen := BitVec.ofNat w olen, events := events,
    trace := trace, drawn := 0 }

def noChars : Vector Byte 5 := #v[0x00, 0x00, 0x00, 0x00, 0x00]
def hello : Vector Byte 5 := #v[0x48, 0x65, 0x6C, 0x6C, 0x6F]
def world : Vector Byte 5 := #v[0x57, 0x6F, 0x72, 0x6C, 0x64]

/-! ## WellFormed -/

/-- R161: no length above `2^LEN_W - 1` can be presented; every other operation can. -/
theorem test_wf_command_too_wide : Instr.wf 8 (.accept 256) = false := by decide
theorem test_wf_command_widest : Instr.wf 8 (.accept 255) = true := by decide
theorem test_wf_others : [Instr.reset, .waitCmd, .shiftin 0xFF, .waitByte, .divstep, .emit, .waitSink, .report,
    .waitAck].all (Instr.wf 1) = true := by decide

/-! ## Decode: one word of each row, written out from R100 (V22) -/

theorem test_decode_reset : decodeTableWord 8 0b10110010 = some .reset := by decide
theorem test_decode_accept : decodeTableWord 8 0b00001000 = some (.accept 0) := by decide
theorem test_decode_wait_cmd : decodeTableWord 8 0b00000111 = some .waitCmd := by decide
theorem test_decode_shiftin : decodeTableWord 8 0b00011111 = some (.shiftin 0x00) := by decide
theorem test_decode_wait_byte : decodeTableWord 8 0b00010000 = some .waitByte := by decide
theorem test_decode_divstep : decodeTableWord 8 0b00100000 = some .divstep := by decide
theorem test_decode_emit : decodeTableWord 8 0b00110010 = some .emit := by decide
theorem test_decode_wait_sink : decodeTableWord 8 0b00111101 = some .waitSink := by decide
theorem test_decode_report : decodeTableWord 8 0b01000001 = some .report := by decide
theorem test_decode_wait_ack : decodeTableWord 8 0b01001000 = some .waitAck := by decide
/-- R104: the first and the last selector of the reserved phase codes. -/
theorem test_decode_reserved : decodeTableWord 8 0b01010000 = none ∧ decodeTableWord 8 0b01111111 = none := by
  decide
/-- Operands come from the data pins (R103). -/
theorem test_decode_operands :
    decode (w := 8) { sel := 0x0F#8, cmdLen := 52#8, inData := 0xAA#8 } = .instr (.accept 52) ∧
    decode (w := 8) { sel := 0x15#8, cmdLen := 52#8, inData := 0xAA#8 } = .instr (.shiftin 0xAA#8) := by
  decide

/-! ## The alphabet: the code list at the end of R97 -/

theorem test_alphabet_codes : romTable =
    [0x30#8, 0x31#8, 0x32#8, 0x33#8, 0x34#8, 0x35#8, 0x36#8, 0x37#8, 0x38#8, 0x39#8, 0x61#8, 0x62#8, 0x63#8,
      0x64#8, 0x65#8, 0x66#8, 0x67#8, 0x68#8, 0x69#8, 0x6A#8, 0x6B#8, 0x6C#8, 0x6D#8, 0x6E#8, 0x6F#8] ++
    [0x70#8, 0x71#8, 0x72#8, 0x73#8, 0x74#8, 0x75#8, 0x76#8, 0x77#8, 0x78#8, 0x79#8, 0x7A#8, 0x41#8, 0x42#8,
      0x43#8, 0x44#8, 0x45#8, 0x46#8, 0x47#8, 0x48#8, 0x49#8, 0x4A#8, 0x4B#8, 0x4C#8, 0x4D#8, 0x4E#8] ++
    [0x4F#8, 0x50#8, 0x51#8, 0x52#8, 0x53#8, 0x54#8, 0x55#8, 0x56#8, 0x57#8, 0x58#8, 0x59#8, 0x5A#8, 0x2E#8,
      0x2D#8, 0x3A#8, 0x2B#8, 0x3D#8, 0x5E#8, 0x21#8, 0x2F#8, 0x2A#8, 0x3F#8, 0x26#8, 0x3C#8, 0x3E#8] ++
    [0x28#8, 0x29#8, 0x5B#8, 0x5D#8, 0x7B#8, 0x7D#8, 0x40#8, 0x25#8, 0x24#8, 0x23#8] := by decide

/-! ## One step of each operation -/

/-- V10: CMD 8 from the reset state. -/
theorem test_accept_valid : nextOf (step { State.reset with trace := [lineCmd 8] }) =
    some (st 32 .assemble 8 0 0x00000000 4 noChars .ok .zero 10 [.cmd 8] []) := by decide
/-- V11: a TooLong after a success; `olen` back to 0, `obuf` left. -/
theorem test_accept_too_long :
    nextOf (step (st 32 .idle 8 8 0x00000000 4 world .ok .zero 10 [] [lineCmd 858993460])) =
    some (st 32 .report 858993460 0 0x00000000 4 world .tooLong .zero 0 [.cmd 858993460] []) := by decide
/-- V13: byte, TAKE and ACK ignored. -/
theorem test_wait_cmd : nextOf (step (st 32 .idle 8 8 0x00000000 4 world .ok .zero 10 []
      [Pins.join (lineByte 0x42) (Pins.join lineTake lineAck)])) =
    some (st 32 .idle 8 8 0x00000000 4 world .ok .zero 10 [] []) := by decide
/-- V14: the fourth byte completes the group; all 32 bits set, the other inputs ignored. -/
theorem test_shiftin_completes : nextOf (step (st 32 .assemble 4 3 0x00FFFFFF 4 noChars .ok .zero 5 []
      [Pins.join (lineCmd 4) (Pins.join (lineByte 0xFF) (Pins.join lineTake lineAck))])) =
    some (st 32 .convert 4 4 0xFFFFFFFF 4 noChars .ok .zero 5 [.byte 0xFF] []) := by decide
/-- V14: the first byte of the second group. -/
theorem test_shiftin_first : nextOf (step (st 32 .assemble 8 4 0x00000000 4 hello .ok .zero 10 [] [lineByte 0x80])) =
    some (st 32 .assemble 8 5 0x00000080 4 hello .ok .zero 10 [.byte 0x80] []) := by decide
/-- V15: CMD, TAKE and ACK ignored. -/
theorem test_wait_byte : nextOf (step (st 32 .assemble 8 2 0x0000864F 4 noChars .ok .zero 10 []
      [Pins.join (lineCmd 4) (Pins.join lineTake lineAck)])) =
    some (st 32 .assemble 8 2 0x0000864F 4 noChars .ok .zero 10 [] []) := by decide
/-- R185: the first DIVSTEP of the worked group. -/
theorem test_divstep_first : nextOf (step (st 32 .convert 8 4 0x864FD26F 4 noChars .ok .zero 10 [] [lineNop])) =
    some (st 32 .convert 8 4 0x019483FB 3 #v[0x00, 0x00, 0x00, 0x00, 0x6F] .ok .zero 10 [] []) := by decide
/-- V16: the DIVSTEP at slot 0, digit 82, all inputs ignored. -/
theorem test_divstep_last : nextOf (step (st 32 .convert 4 4 0x00000052 0 #v[0x00, 0x6E, 0x53, 0x63, 0x30] .ok .zero 5 []
      [Pins.join (lineCmd 4) (Pins.join (lineByte 0x00) (Pins.join lineTake lineAck))])) =
    some (st 32 .emit 4 4 0x00000000 0 #v[0x25, 0x6E, 0x53, 0x63, 0x30] .ok .zero 5 [] []) := by decide
/-- V17: slot 4 and `pos != len`. -/
theorem test_emit_next_group : nextOf (step (st 32 .emit 8 4 0x00000000 4 hello .ok .zero 10 [] [lineTake])) =
    some (st 32 .assemble 8 4 0x00000000 4 hello .ok .zero 10 [.char 0x6F] []) := by decide
/-- V17: slot 4 and `pos = len`; the ACK of this step is not used. -/
theorem test_emit_end : nextOf (step (st 32 .emit 8 8 0x00000000 4 world .ok .zero 10 [] [Pins.join lineTake lineAck])) =
    some (st 32 .report 8 8 0x00000000 4 world .ok .zero 10 [.char 0x64] []) := by decide
/-- V18: everything but `out_ready` ignored. -/
theorem test_wait_sink : nextOf (step (st 32 .emit 8 4 0x00000000 2 hello .ok .zero 10 []
      [Pins.join (lineCmd 4) (Pins.join (lineByte 0x01) lineAck)])) =
    some (st 32 .emit 8 4 0x00000000 2 hello .ok .zero 10 [] []) := by decide
/-- V19: success. -/
theorem test_report_success : nextOf (step (st 32 .report 8 8 0x00000000 4 world .ok .zero 10 [] [lineAck])) =
    some (st 32 .idle 8 8 0x00000000 4 world .ok .zero 10 [.status (.success 10)] []) := by decide
/-- V19: InvalidLength; the command offered in the same step is not taken. -/
theorem test_report_failure : nextOf (step (st 32 .report 7 0 0x00000000 4 noChars .invalidLength .four 0 []
      [Pins.join lineAck (lineCmd 4)])) =
    some (st 32 .idle 7 0 0x00000000 4 noChars .invalidLength .four 0 [.status .invalidLength] []) := by decide
/-- U5 of 93_implementation_defined.md: the parameter 4 without InvalidLength is no status word, and is refused. -/
theorem test_report_unproduced : step (st 32 .report 8 8 0x00000000 4 world .ok .four 10 [] [lineAck]) =
    .refused (.unproducedStatus .ok .four 10) := rfl
/-- V20 (R202's example): the command is not taken. -/
theorem test_wait_ack : nextOf (step (st 32 .report 5 0 0x00000000 4 noChars .invalidLength .four 0 [] [lineCmd 8])) =
    some (st 32 .report 5 0 0x00000000 4 noChars .invalidLength .four 0 [] []) := by decide
/-- R260's example: RST + TAKE in EMIT; no character is transferred. -/
theorem test_reset : nextOf (step (st 32 .emit 8 4 0x00000000 2 hello .ok .zero 10 [] [Pins.join lineRst lineTake])) =
    some { State.reset with events := [.reset] } := by decide
/-- V1: the known vector, through the reference function. -/
theorem test_encode_known_vector :
    encodeBytes 32 [0x86, 0x4F, 0xD2, 0x6F, 0xB5, 0x59, 0xF7, 0x5B] =
      .ok [0x48, 0x65, 0x6C, 0x6C, 0x6F, 0x57, 0x6F, 0x72, 0x6C, 0x64] := by decide
/-- V22: what `withFetchWord` places is what the next step performs, SHIFTIN here. -/
theorem test_with_fetch_word : nextOf (step (State.reset.withFetchWord 8 0x14)) =
    some (st 32 .assemble 0 1 0x00000000 4 noChars .ok .zero 0 [.byte 0x00] []) := by decide
/-- R106: the lines of `ENCODE_BAD` and of `WAIT`. -/
theorem test_macros : traceEncodeBad 5 = [lineCmd 5, lineAck] ∧ traceWait 2 = [lineNop, lineNop] := by decide

/-! ## Witnesses: for each obligation with hypotheses, a state and operands that meet them together -/

/-- LEN_W = 8 (LEN_LIMIT = 51) in IDLE, with its history and coming lines. -/
def idle8 (events : List Event) (trace : List Pins) : State := st 8 .idle 0 0 0 4 noChars .ok .zero 0 events trace
/-- One byte of a 4-byte call has been taken. -/
def assembling (trace : List Pins) : State :=
  st 8 .assemble 4 1 0x00000086 4 noChars .ok .zero 5 [.cmd 4, .byte 0x86] trace
/-- The group has been taken and one digit made. -/
def converting (trace : List Pins) : State :=
  st 8 .convert 4 4 0x019483FB 3 #v[0x00, 0x00, 0x00, 0x00, 0x6F] .ok .zero 5
    [.cmd 4, .byte 0x86, .byte 0x4F, .byte 0xD2, .byte 0x6F] trace
/-- Two characters of the group have been sent. -/
def emitting (trace : List Pins) : State :=
  st 8 .emit 4 4 0 2 hello .ok .zero 5
    [.cmd 4, .byte 0x86, .byte 0x4F, .byte 0xD2, .byte 0x6F, .char 0x48, .char 0x65] trace
/-- All five have been sent. -/
def reporting (trace : List Pins) : State :=
  st 8 .report 4 4 0 4 hello .ok .zero 5
    [.cmd 4, .byte 0x86, .byte 0x4F, .byte 0xD2, .byte 0x6F, .char 0x48, .char 0x65, .char 0x6C, .char 0x6C,
      .char 0x6F] trace
/-- The empty call. -/
def reportingEmpty (trace : List Pins) : State := st 8 .report 0 0 0 4 noChars .ok .zero 0 [.cmd 0] trace
/-- A call that failed on a length one above the limit. -/
def reportingTooLong (trace : List Pins) : State := st 8 .report 52 0 0 4 noChars .tooLong .zero 0 [.cmd 52] trace
/-- A call that failed on the limit itself, which is not a multiple of 4. -/
def reportingInvalid (trace : List Pins) : State := st 8 .report 51 0 0 4 noChars .invalidLength .four 0 [.cmd 51] trace

theorem witness_regInv_idle : RegInv (idle8 [] [lineCmd 4]) := by constructor <;> decide
theorem witness_callInv_idle : CallInv (idle8 [] [lineCmd 0, lineAck]) := by
  constructor <;> first | decide | (constructor <;> decide)
theorem witness_callInv_idle_after_call :
    CallInv (idle8 [.cmd 5, .status .invalidLength] [lineNop, lineCmd 0, lineAck]) := by
  constructor <;> first | decide | (constructor <;> decide)
theorem witness_callInv_assemble : CallInv (assembling [lineByte 0x4F]) := by
  constructor <;> first | decide | (constructor <;> decide)
theorem witness_callInv_convert : CallInv (converting [lineRst]) := by
  constructor <;> first | decide | (constructor <;> decide)
theorem witness_callInv_emit : CallInv (emitting [lineTake]) := by
  constructor <;> first | decide | (constructor <;> decide)
theorem witness_callInv_report : CallInv (reporting [lineAck]) := by
  constructor <;> first | decide | (constructor <;> decide)
theorem witness_callInv_report_empty : CallInv (reportingEmpty [lineAck]) := by
  constructor <;> first | decide | (constructor <;> decide)
theorem witness_callInv_report_too_long : CallInv (reportingTooLong [lineAck]) := by
  constructor <;> first | decide | (constructor <;> decide)
theorem witness_callInv_report_invalid : CallInv (reportingInvalid [lineAck]) := by
  constructor <;> first | decide | (constructor <;> decide)

theorem witness_EveryStepAnswersANextState :
    RegInv (reporting [lineAck]) ∧ (reporting []).status? ≠ none ∧ Instr.emit ≠ .report :=
  ⟨witness_callInv_report.toRegInv, by decide⟩
theorem witness_StepPerformsSelectedOperation :
    decode (idle8 [] [lineCmd 4]).inWord = .instr (.accept 4) ∧
      (idle8 [] [lineCmd 4]).trace = lineCmd 4 :: [] ∧ State.reset.trace = [] := by decide
theorem witness_SelectorMapIsTotalAndUnambiguous :
    (∃ x : InWord 8, 0x50 ≤ x.sel.toNat ∧ x.sel.toNat ≤ 0x7F ∧ x.sel = 0x50#8) ∧
      (∃ x : InWord 8, 0x50 ≤ x.sel.toNat ∧ x.sel.toNat ≤ 0x7F ∧ x.sel = 0x7F#8) :=
  ⟨⟨⟨0x50#8, 0#8, 0#8⟩, by decide⟩, ⟨⟨0x7F#8, 0#8, 0#8⟩, by decide⟩⟩
theorem witness_DecodeOfEncodeIsTheOperation :
    (Instr.accept 255).wf 8 = true ∧ (Instr.shiftin 0xFF#8).wf 8 = true := by decide
theorem witness_EncodeOfDecodeAgreesOnTheMask :
    decode (w := 8) { sel := 0x0F#8, cmdLen := 255#8, inData := 0xAA#8 } = .instr (.accept 255) ∧
      decode (w := 8) { sel := 0x1F#8, cmdLen := 255#8, inData := 0xAA#8 } = .instr (.shiftin 0xAA#8) := by decide
theorem witness_ResetWritesEveryRegister : (emitting [Pins.join lineRst lineTake]).line.rst = true := by decide
theorem witness_ResetReadsNoRegister : 1 ≤ (st 1 .emit 1 1 0xFF 2 hello .ok .four 1 [] []).lenW := by decide
theorem witness_HeldResetLeavesTheResetState :
    ([lineRst, lineRst] ≠ [] ∧ (∀ p ∈ [lineRst, lineRst], p.rst = true) ∧
      (emitting [lineRst, lineRst, lineNop]).trace = [lineRst, lineRst] ++ [lineNop]) ∧
    nextOf (exec .reset (emitting [lineCmd 4])) = some (idle8 ((emitting []).events ++ [.reset]) [lineCmd 4]) ∧
    (idle8 ((emitting []).events ++ [.reset]) [lineCmd 4]).line.rst = false := by decide
theorem witness_AcceptValidatesInOrder :
    (idle8 [] [lineCmd 4]).line.rst = false ∧ (idle8 [] [lineCmd 4]).phase = .idle ∧
      (idle8 [] [lineCmd 4]).line.cmdValid = true := by decide
/-- The four paths of ACCEPT at the boundaries of V12, LEN_W = 8: 52 and 51 about the limit, 48 the largest valid
length, 0. -/
theorem witness_accept_paths :
    nextOf (exec (.accept 52) (idle8 [] [])) = some (st 8 .report 52 0 0 4 noChars .tooLong .zero 0 [.cmd 52] []) ∧
    nextOf (exec (.accept 51) (idle8 [] [])) =
      some (st 8 .report 51 0 0 4 noChars .invalidLength .four 0 [.cmd 51] []) ∧
    nextOf (exec (.accept 48) (idle8 [] [])) = some (st 8 .assemble 48 0 0 4 noChars .ok .zero 60 [.cmd 48] []) ∧
    nextOf (exec (.accept 0) (idle8 [] [])) = some (st 8 .report 0 0 0 4 noChars .ok .zero 0 [.cmd 0] []) := by decide
/-- The failing ACCEPTs of `witness_accept_paths` change `err` to a failure. -/
theorem witness_OnlyAcceptRaisesAFailure :
    (reportingTooLong []).err ≠ (idle8 [] []).err ∧ (reportingTooLong []).err ≠ .ok ∧
      (reportingInvalid []).err ≠ (idle8 [] []).err ∧ (reportingInvalid []).err ≠ .ok := by decide
theorem witness_EmptyCallReportsAtOnce :
    (idle8 [] [lineCmd 0, lineAck]).phase = .idle ∧
      (idle8 [] [lineCmd 0, lineAck]).trace = lineCmd 0 :: lineAck :: [] ∧
      nextOf (step (idle8 [] [lineCmd 48])) = some (st 8 .assemble 48 0 0 4 noChars .ok .zero 60 [.cmd 48] []) := by
  decide
theorem witness_WaitsKeepEveryRegister :
    ((idle8 [] [lineTake]).line.rst = false ∧ (idle8 [] [lineTake]).phase = .idle ∧
      (idle8 [] [lineTake]).line.cmdValid = false) ∧
    ((assembling [lineTake]).line.rst = false ∧ (assembling [lineTake]).phase = .assemble ∧
      (assembling [lineTake]).line.inValid = false) ∧
    ((emitting [lineAck]).line.rst = false ∧ (emitting [lineAck]).phase = .emit ∧
      (emitting [lineAck]).line.outReady = false) ∧
    ((reporting [lineTake]).line.rst = false ∧ (reporting [lineTake]).phase = .report ∧
      (reporting [lineTake]).line.stReady = false) ∧
    (∀ p ∈ [lineNop, lineAck], p.rst = false ∧ progresses (emitting [lineNop, lineAck]).phase p = false) ∧
    (emitting [lineNop, lineAck]).trace = [lineNop, lineAck] ++ [] := by decide
theorem witness_ShiftinTakesTheNextByte :
    (assembling [lineByte 0x4F]).line.rst = false ∧ (assembling [lineByte 0x4F]).phase = .assemble ∧
      (assembling [lineByte 0x4F]).line.inValid = true := by decide
/-- At the narrowest LEN_W and the last position that satisfy the premises, with `acc` not 0. -/
theorem witness_FourShiftinsAssembleTheGroupBigEndian :
    (st 3 .assemble 4 0 0xFFFFFFFF 4 noChars .ok .zero 5 [] [lineByte 1, lineByte 2, lineByte 3, lineByte 4]).phase
        = .assemble ∧
      (st 3 .assemble 4 0 0xFFFFFFFF 4 noChars .ok .zero 5 [] [lineByte 1, lineByte 2, lineByte 3, lineByte 4]).pos.toNat
        % 4 = 0 ∧
      (st 3 .assemble 4 0 0xFFFFFFFF 4 noChars .ok .zero 5 [] [lineByte 1, lineByte 2, lineByte 3, lineByte 4]).pos.toNat
        + 4 < 2 ^ 3 ∧
      (st 3 .assemble 4 0 0xFFFFFFFF 4 noChars .ok .zero 5 [] [lineByte 1, lineByte 2, lineByte 3, lineByte 4]).trace =
        lineByte 1 :: lineByte 2 :: lineByte 3 :: lineByte 4 :: [] := by decide
theorem witness_DivstepPlacesOneDigit :
    (converting [lineTake]).line.rst = false ∧ (converting [lineTake]).phase = .convert := by decide
theorem witness_FiveDivstepsFillTheBuffer :
    (st 8 .convert 4 4 0xFFFFFFFF 4 noChars .ok .zero 5 [] (List.replicate 5 lineTake)).phase = .convert ∧
      (st 8 .convert 4 4 0xFFFFFFFF 4 noChars .ok .zero 5 [] (List.replicate 5 lineTake)).slot = 4 ∧
      (List.replicate 5 lineTake).length = 5 ∧ (∀ p ∈ List.replicate 5 lineTake, p.rst = false) ∧
      (st 8 .convert 4 4 0xFFFFFFFF 4 noChars .ok .zero 5 [] (List.replicate 5 lineTake)).trace =
        List.replicate 5 lineTake ++ [] := by decide
theorem witness_EmitSendsTheOfferedCharacter :
    (emitting [lineTake]).line.rst = false ∧ (emitting [lineTake]).phase = .emit ∧
      (emitting [lineTake]).line.outReady = true := by decide
theorem witness_EmitSendsTheBufferOnceInOrder :
    let lines := [lineTake, lineNop, lineTake, lineTake, lineAck, lineTake]
    let s := st 8 .emit 4 4 0 0 hello .ok .zero 5 [] (lines ++ lineTake :: [])
    s.phase = .emit ∧ s.slot = 0 ∧ (∀ p ∈ lines, p.rst = false) ∧ (lines.filter fun p => p.outReady).length = 4 ∧
      lineTake.rst = false ∧ lineTake.outReady = true ∧ s.trace = lines ++ lineTake :: [] := by decide
theorem witness_ReportHandsOverTheStatus :
    RegInv (reporting [lineAck]) ∧ (reporting [lineAck]).line.rst = false ∧ (reporting [lineAck]).phase = .report ∧
      (reporting [lineAck]).line.stReady = true ∧ (reporting [lineAck]).status? = some (.success 5) :=
  ⟨witness_callInv_report.toRegInv, by decide⟩
/-- Each clause of StatusWordIsOneOfFour, on the states `witness_callInv_report…` are about. -/
theorem witness_StatusWordIsOneOfFour :
    (reportingTooLong [lineAck]).len.toNat > Config.lenLimit 8 ∧
      ((reportingInvalid [lineAck]).len.toNat ≤ Config.lenLimit 8 ∧ (reportingInvalid [lineAck]).len.toNat % 4 ≠ 0) ∧
      (reportingEmpty [lineAck]).len.toNat = 0 ∧
      (0 < (reporting [lineAck]).len.toNat ∧ (reporting [lineAck]).len.toNat ≤ Config.lenLimit 8 ∧
        (reporting [lineAck]).len.toNat % 4 = 0) := by decide
/-- The four status words, the empty one and each clause's registers; a result length no call has (7); the recorded
words, by the steps `test_report_success` and `test_report_failure` make. -/
theorem witness_ReportRefusesAnyOtherStatusWord :
    (reportingEmpty []).status? = some .empty ∧ (reporting []).status? = some (.success 5) ∧
      (reportingTooLong []).status? = some .tooLong ∧ (reportingInvalid []).status? = some .invalidLength ∧
      (st 8 .report 4 4 0 4 hello .ok .zero 7 [] []).status? = none ∧
      (st 8 .report 4 4 0 4 hello .ok .zero 65 [] []).status? = none ∧
      nextOf (exec .report (reportingTooLong [])) =
        some (st 8 .idle 52 0 0 4 noChars .tooLong .zero 0 ((reportingTooLong []).events ++ [.status .tooLong]) []) := by
  decide
/-- A state in REPORT and one in another phase that are `reportable`, for the statements with that premise. -/
theorem witness_reportable : (reporting [lineAck]).reportable ∧ (emitting [lineTake]).reportable :=
  ⟨fun _ => by decide, fun h => absurd h (by decide)⟩
theorem witness_OutputsFollowTheRegisters :
    ((emitting [lineAck]).line.rst = false ∧ (emitting [lineAck]).outputs.outValid = true ∧
      (emitting [lineAck]).line.outReady = false) ∧
    ((reporting [lineTake]).line.rst = false ∧ (reporting [lineTake]).outputs.stValid = true ∧
      (reporting [lineTake]).line.stReady = false) := by decide
theorem witness_IgnoredPinsHaveNoEffect :
    agreeFor .emit lineTake (Pins.join lineTake (Pins.join (lineCmd 9) (lineByte 7))) ∧
      (emitting [lineRst]).line.rst = true := ⟨⟨rfl, fun _ => rfl⟩, by decide⟩
/-- A step and an operation that answer a next state, for the statements that say `if it answers next t`. -/
theorem witness_next_states :
    nextOf (step (emitting [lineTake])) =
      some (st 8 .emit 4 4 0 3 hello .ok .zero 5 ((emitting []).events ++ [.char 0x6C]) []) ∧
    nextOf (exec .divstep (converting [])) =
      some (st 8 .convert 4 4 0x0004C24E 2 #v[0x00, 0x00, 0x00, 0x6C, 0x6F] .ok .zero 5 (converting []).events []) := by
  decide
theorem witness_SourcePositionNeverWraps :
    RegInv (assembling [lineByte 0x4F]) ∧ (assembling [lineByte 0x4F]).phase = .assemble ∧
      (assembling [lineByte 0x4F]).line.rst = false ∧ (assembling [lineByte 0x4F]).line.inValid = true :=
  ⟨witness_callInv_assemble.toRegInv, by decide⟩
theorem witness_OnlyAlphabetCharactersAreSent :
    RegInv (emitting [lineTake]) ∧ nextOf (step (emitting [lineTake])) =
      some (st 8 .emit 4 4 0 3 hello .ok .zero 5 ((emitting [lineTake]).events ++ [.char 0x6C]) []) :=
  ⟨witness_callInv_emit.toRegInv, by decide⟩
/-- The premises of CallsNeverOverlap and of each clause of CallComputesTheTransform: a call of length 52, 51 and 0 at
LEN_W = 8, run to its status in two steps. -/
theorem witness_CallComputesTheTransform :
    nextOf (runSteps 2 (idle8 [] [lineCmd 52, lineAck])) =
      some (st 8 .idle 52 0 0 4 noChars .tooLong .zero 0 ([] ++ (.cmd 52 :: ([] ++ [.status .tooLong]))) []) ∧
    nextOf (runSteps 2 (idle8 [] [lineCmd 51, lineAck])) =
      some (st 8 .idle 51 0 0 4 noChars .invalidLength .four 0 ([] ++ (.cmd 51 :: ([] ++ [.status .invalidLength]))) []) ∧
    nextOf (runSteps 2 (idle8 [] [lineCmd 0, lineAck])) =
      some (st 8 .idle 0 0 0 4 noChars .ok .zero 0 ([] ++ (.cmd 0 :: ([] ++ [.status .empty]))) []) ∧
    (∀ e ∈ ([] : List Event), e.endsCall = false) := by decide
/-- A second run for CallResultIgnoresHistoryAndSchedule: another history, another schedule, the same command. -/
theorem witness_CallResultIgnoresHistoryAndSchedule :
    nextOf (runSteps 3 (idle8 [.cmd 5, .status .invalidLength] [lineNop, lineCmd 0, lineAck])) =
      some (st 8 .idle 0 0 0 4 noChars .ok .zero 0
        ([.cmd 5, .status .invalidLength] ++ (.cmd 0 :: ([] ++ [.status .empty]))) []) := by decide
theorem witness_EncodeTraceRunsOneWholeCall :
    (idle8 [] (traceEncode [1, 2, 3, 4] ++ [lineNop])).phase = .idle ∧ [1, 2, 3, 4].length % 4 = 0 ∧
      [1, 2, 3, 4].length ≤ Config.lenLimit 8 ∧
      (idle8 [] (traceEncode [1, 2, 3, 4] ++ [lineNop])).trace = traceEncode [1, 2, 3, 4] ++ [lineNop] ∧
      ([] : List Byte).length ≤ Config.lenLimit 8 := by decide
theorem witness_FailedCallHandsOverOnlyItsStatus :
    let command := lineCmd 52
    let s := idle8 [] (command :: ([lineTake, lineNop] ++ lineAck :: [lineNop]))
    s.phase = .idle ∧ command.rst = false ∧ command.cmdValid = true ∧
      (∀ p ∈ [lineTake, lineNop], p.rst = false ∧ p.stReady = false) ∧ lineAck.rst = false ∧
      lineAck.stReady = true ∧ s.trace = command :: ([lineTake, lineNop] ++ lineAck :: [lineNop]) ∧
      (BitVec.ofNat 8 52).toNat > Config.lenLimit 8 ∧
      (BitVec.ofNat 8 51).toNat ≤ Config.lenLimit 8 ∧ (BitVec.ofNat 8 51).toNat % 4 ≠ 0 := by decide
theorem witness_EachStepWaitsOrDoesOneOperationOfTheCall :
    RegInv (emitting [lineTake]) ∧ (emitting [lineTake]).phase ≠ .idle ∧
      (emitting [lineTake]).line.rst = false ∧ progresses .emit lineTake = true ∧ progresses .emit lineAck = false :=
  ⟨witness_callInv_emit.toRegInv, by decide⟩
theorem witness_FairEnvironmentEndsTheCall :
    RegInv (reporting [lineAck]) ∧ (reporting [lineAck]).phase ≠ .idle ∧ resetFree 1 (reporting [lineAck]) ∧
      (reporting [lineAck]).work ≤ progressSteps 1 (reporting [lineAck]) :=
  ⟨witness_callInv_report.toRegInv, by decide, ⟨rfl, trivial⟩, by decide⟩
theorem witness_ResetInsideACallLeavesAPrefix :
    CallInv (converting [lineRst]) ∧ (converting [lineRst]).phase ≠ .idle ∧
      (converting [lineRst]).line.rst = true := ⟨witness_callInv_convert, by decide⟩
theorem witness_transform :
    (0 : Nat) < 2 ^ 32 ∧ 2 ^ 32 - 1 < 2 ^ 32 ∧ [1, 2, 3, 4].length ≤ Config.lenLimit 32 ∧
      [(1 : Byte), 2, 3, 4][4 * 0]? = some 1 ∧ [(1 : Byte), 2, 3, 4][4 * 0 + 3]? = some 4 ∧
      encodeBytes 8 [0, 0, 0, 0] = .ok [0x30, 0x30, 0x30, 0x30, 0x30] ∧
      [(1 : Byte), 2, 3, 4].length % 4 = 0 ∧ ([1, 2, 3, 4] ++ [(5 : Byte), 6, 7, 8]).length ≤ Config.lenLimit 8 := by
  decide
/-- Both failing checks of `encode`, at LEN_W = 3 (LEN_LIMIT = 1). -/
theorem witness_EncodeMakesTheChecksInOrder :
    [(1 : Byte), 2].length > (2 ^ 3 - 1) / 5 ∧
      ([(1 : Byte)].length ≤ (2 ^ 3 - 1) / 5 ∧ [(1 : Byte)].length % 4 ≠ 0) := by decide

end Sys2Proof.Tests
end

/-! The output pins, and what each phase's step records (10_state.md R41 to R44). -/
section
namespace Sys2Proof.Machine

/-! ### The output pins, one lemma per field -/

@[simp] theorem State.outputs_cmdReady (s : State) : s.outputs.cmdReady = (s.phase == .idle) := rfl
@[simp] theorem State.outputs_inReady (s : State) : s.outputs.inReady = (s.phase == .assemble) := rfl
@[simp] theorem State.outputs_outValid (s : State) : s.outputs.outValid = (s.phase == .emit) := rfl
@[simp] theorem State.outputs_stValid (s : State) : s.outputs.stValid = (s.phase == .report) := rfl
@[simp] theorem State.outputs_outData (s : State) :
    s.outputs.outData = if s.phase = .emit then some s.obuf[s.slot] else none := rfl
@[simp] theorem State.outputs_stCode (s : State) :
    s.outputs.stCode = if s.phase = .report then some s.err.code else none := rfl
@[simp] theorem State.outputs_stParam (s : State) :
    s.outputs.stParam = if s.phase = .report then some s.errparam.code else none := rfl
@[simp] theorem State.outputs_stOlen (s : State) :
    s.outputs.stOlen = if s.phase = .report then some s.olen.toNat else none := rfl

@[simp] theorem State.advance_outputs (s : State) : s.advance.outputs = s.outputs := rfl
@[simp] theorem State.advance_status? (s : State) : s.advance.status? = s.status? := rfl

/-- The phases other than CONVERT hold up exactly one of the four valid and ready outputs. -/
theorem State.outputs_active_count (s : State) :
    ([s.outputs.cmdReady, s.outputs.inReady, s.outputs.outValid, s.outputs.stValid].filter id).length =
      if s.phase = .convert then 0 else 1 := by
  cases h : s.phase <;> simp [h]

/-! ### What a step records, phase by phase -/

/-- The step of a WAIT operation: the line is used up and nothing else changes (R166, R172, R192, R202). -/
theorem step_wait {s : State} (hr : s.line.rst = false) (hw : progresses s.phase s.line = false) :
    step s = .next s.advance := by
  cases hp : s.phase with
  | idle => rw [step_idle hr hp, if_neg (by simpa [progresses, hp] using hw)]
  | assemble => rw [step_assemble hr hp, if_neg (by simpa [progresses, hp] using hw)]
  | convert => simp [progresses, hp] at hw
  | emit => rw [step_emit hr hp, if_neg (by simpa [progresses, hp] using hw)]
  | report => rw [step_report hr hp, if_neg (by simpa [progresses, hp] using hw)]

theorem step_reset_eq {s : State} (hr : s.line.rst = true) :
    step s = .next (s.advance.resetRegisters.record .reset) := step_reset hr

/-- ACCEPT answers on all its paths, and each records its one `Cmd`. -/
theorem execAccept_records (cmdLen : Nat) (s : State) :
    ∃ t, execAccept cmdLen s = .next t ∧ t.events = s.events ++ [.cmd (cmdLen % 2 ^ s.lenW)] := by
  by_cases hlimit : (BitVec.ofNat s.lenW cmdLen).toNat ≤ Config.lenLimit s.lenW
  · by_cases haligned : (BitVec.ofNat s.lenW cmdLen).toNat % 4 = 0
    · by_cases hempty : (BitVec.ofNat s.lenW cmdLen).toNat = 0
      · exact ⟨_, execAccept_empty hempty, by simp⟩
      · exact ⟨_, execAccept_start hlimit haligned hempty, by simp⟩
    · exact ⟨_, execAccept_invalidLength hlimit haligned, by simp⟩
  · exact ⟨_, execAccept_tooLong (Nat.lt_of_not_le hlimit), by simp⟩

theorem step_idle_records {s : State} (hr : s.line.rst = false) (hp : s.phase = .idle) :
    ∃ t, step s = .next t ∧ t.events = s.events ++
      if s.line.cmdValid then [.cmd (s.line.cmdLen % 2 ^ s.lenW)] else [] := by
  rw [step_idle hr hp]
  split
  · simpa using execAccept_records (s.line.cmdLen % 2 ^ s.lenW) s.advance
  · exact ⟨_, rfl, by simp⟩

theorem step_assemble_records {s : State} (hr : s.line.rst = false) (hp : s.phase = .assemble) :
    ∃ t, step s = .next t ∧ t.events = s.events ++
      if s.line.inValid then [.byte s.line.inData] else [] := by
  rw [step_assemble hr hp]
  split
  · exact ⟨_, execShiftin_eq _ _, by simp⟩
  · exact ⟨_, rfl, by simp⟩

theorem step_convert_records {s : State} (hr : s.line.rst = false) (hp : s.phase = .convert) :
    ∃ t, step s = .next t ∧ t.events = s.events := by
  rw [step_convert hr hp]
  exact ⟨_, execDivstep_eq _, rfl⟩

theorem step_emit_records {s : State} (hr : s.line.rst = false) (hp : s.phase = .emit) :
    ∃ t, step s = .next t ∧ t.events = s.events ++
      if s.line.outReady then [.char s.obuf[s.slot]] else [] := by
  rw [step_emit hr hp]
  split
  · exact ⟨_, execEmit_eq _, by simp⟩
  · exact ⟨_, rfl, by simp⟩

theorem step_report_records {s : State} {word : Status} (hr : s.line.rst = false) (hp : s.phase = .report)
    (hw : s.status? = some word) :
    ∃ t, step s = .next t ∧ t.events = s.events ++
      if s.line.stReady then [.status word] else [] := by
  rw [step_report hr hp]
  split
  · exact ⟨_, execReport_some (s.advance_status?.trans hw), by simp⟩
  · exact ⟨_, rfl, by simp⟩

/-! ### The two obligations -/

/-- Settles O26: the pins are read off `phase`, and an offer that is not taken is a WAIT step, which writes none of
the registers the pins show. -/
theorem outputsFollowTheRegisters : Obligations.OutputsFollowTheRegisters := by
  unfold Obligations.OutputsFollowTheRegisters
  constructor
  · intro s
    exact ⟨rfl, rfl, rfl, rfl, by simp, by simp, by simp, by simp, s.outputs_active_count⟩
  · intro s hr hoffer
    have hw : progresses s.phase s.line = false := by
      obtain ⟨hv, hready⟩ | ⟨hv, hready⟩ := hoffer
      · have hp : s.phase = .emit := by simpa using hv
        simp [progresses, hp, hready]
      · have hp : s.phase = .report := by simpa using hv
        simp [progresses, hp, hready]
    exact ⟨s.advance, step_wait hr hw, s.advance_outputs⟩

/-- Settles O27: in each phase at most one channel has its block-side pin at 1, and the phase's step records that
channel's transfer. -/
theorem transferWhenValidAndReady : Obligations.TransferWhenValidAndReady := by
  unfold Obligations.TransferWhenValidAndReady
  intro s hreportable
  cases hr : s.line.rst with
  | true => exact ⟨_, step_reset_eq hr, by simp⟩
  | false =>
    cases hp : s.phase with
    | idle => simpa [hp] using step_idle_records hr hp
    | assemble => simpa [hp] using step_assemble_records hr hp
    | convert => simpa [hp] using step_convert_records hr hp
    | emit => simpa [hp] using step_emit_records hr hp
    | report =>
      obtain ⟨word, hw⟩ := Option.ne_none_iff_exists'.1 (hreportable hp)
      simpa [hp, hw] using step_report_records hr hp hw

end Sys2Proof.Machine
end

/-! The assembly of one group (20_memory.md R66, 42_assemble.md R170, R171). -/
section
namespace Sys2Proof.Machine

/-! ### The bytes of a group's word -/

/-- R66: the byte transferred first lands in bits 31:24, the byte transferred last in bits 7:0. -/
theorem groupWord_bytes (b0 b1 b2 b3 : Byte) :
    (groupWord b0 b1 b2 b3).extractLsb' 24 8 = b0 ∧ (groupWord b0 b1 b2 b3).extractLsb' 16 8 = b1 ∧
      (groupWord b0 b1 b2 b3).extractLsb' 8 8 = b2 ∧ (groupWord b0 b1 b2 b3).extractLsb' 0 8 = b3 := by
  have h0 := b0.isLt
  have h1 := b1.isLt
  have h2 := b2.isLt
  have h3 := b3.isLt
  simp only [← BitVec.toNat_inj, BitVec.extractLsb'_toNat, groupWord_toNat, groupVal,
    Nat.shiftRight_eq_div_pow]
  omega

/-! ### One BYTE line in ASSEMBLE -/

/-- A byte that does not complete its group stays in ASSEMBLE. -/
theorem run_byte_inside (n : Nat) {s : State} {b : Byte} {ps : List Pins} (ht : s.trace = lineByte b :: ps)
    (hp : s.phase = .assemble) (ha : isGroupAligned (s.pos + 1#s.lenW) = false) :
    runSteps (n + 1) s = runSteps n { s with
      acc := shiftByte s.acc b, pos := s.pos + 1#s.lenW, events := s.events ++ [.byte b], trace := ps } := by
  rw [run_shiftin n ht rfl rfl hp]
  simp [ha, lineByte]

/-- The byte that completes its group goes on to CONVERT, at the last slot. -/
theorem run_byte_last (n : Nat) {s : State} {b : Byte} {ps : List Pins} (ht : s.trace = lineByte b :: ps)
    (hp : s.phase = .assemble) (ha : isGroupAligned (s.pos + 1#s.lenW) = true) :
    runSteps (n + 1) s = runSteps n { s with
      acc := shiftByte s.acc b, pos := s.pos + 1#s.lenW, phase := .convert, slot := 4,
      events := s.events ++ [.byte b], trace := ps } := by
  rw [run_shiftin n ht rfl rfl hp]
  simp [ha, lineByte]

/-! ### The BYTE lines of a group -/

/-- Bytes that do not complete their group: each is shifted into `acc` and counted in `pos` (R170). -/
theorem run_bytes_inside (n : Nat) (bytes : List Byte) {s : State} {ps : List Pins}
    (ht : s.trace = bytes.map lineByte ++ ps) (hp : s.phase = .assemble)
    (hgroup : s.pos.toNat % 4 + bytes.length < 4) (hroom : s.pos.toNat + bytes.length < 2 ^ s.lenW) :
    runSteps (bytes.length + n) s = runSteps n { s with
      acc := bytes.foldl shiftByte s.acc, pos := s.pos + BitVec.ofNat s.lenW bytes.length,
      events := s.events ++ bytes.map .byte, trace := ps } := by
  induction bytes generalizing s with
  | nil =>
    obtain rfl : s.trace = ps := ht
    simp
  | cons b bytes ih =>
    simp only [List.length_cons] at hgroup hroom
    have hpos : (s.pos + 1#s.lenW).toNat = s.pos.toNat + 1 := toNat_add_of_lt s.pos 1 (by omega)
    have ha : isGroupAligned (s.pos + 1#s.lenW) = false := by
      rw [Bool.eq_false_iff, ne_eq, isGroupAligned_iff]
      omega
    rw [List.length_cons, Nat.add_right_comm, run_byte_inside _ ht hp ha, ih]
    · simp [BitVec.add_assoc, ← BitVec.ofNat_add, Nat.add_comm 1]
    · rfl
    · exact hp
    · dsimp only; omega
    · dsimp only; omega

/-- The exact end state of the four BYTE lines of a group, whatever `acc` held before (R171). -/
theorem run_group_bytes {s : State} {b0 b1 b2 b3 : Byte} {rest : List Pins} (hp : s.phase = .assemble)
    (h4 : s.pos.toNat % 4 = 0) (hroom : s.pos.toNat + 4 < 2 ^ s.lenW)
    (ht : s.trace = lineByte b0 :: lineByte b1 :: lineByte b2 :: lineByte b3 :: rest) :
    runSteps 4 s = .next { s with
      acc := groupWord b0 b1 b2 b3, pos := s.pos + 4#s.lenW, phase := .convert, slot := 4,
      events := s.events ++ [.byte b0, .byte b1, .byte b2, .byte b3], trace := rest } := by
  have hpos : s.pos + 3#s.lenW + 1#s.lenW = s.pos + 4#s.lenW := by
    rw [BitVec.add_assoc, ← BitVec.ofNat_add]
  have ha : isGroupAligned (s.pos + 3#s.lenW + 1#s.lenW) = true := by
    rw [hpos, isGroupAligned_iff, toNat_add_of_lt s.pos 4 hroom]
    omega
  refine (run_bytes_inside 1 [b0, b1, b2] ht hp (by simp [h4]) (Nat.lt_of_succ_lt hroom)).trans ?_
  rw [run_byte_last 0 (b := b3) (ps := rest), run_zero]
  · simp [shiftByte_four, hpos]
  · rfl
  · exact hp
  · exact ha

/-- Settles O19: the exact end state of the four lines, read register by register. -/
theorem fourShiftinsAssembleTheGroupBigEndian : Obligations.FourShiftinsAssembleTheGroupBigEndian := by
  unfold Obligations.FourShiftinsAssembleTheGroupBigEndian
  intro s b0 b1 b2 b3 rest hp h4 hroom ht
  obtain ⟨hb0, hb1, hb2, hb3⟩ := groupWord_bytes b0 b1 b2 b3
  exact ⟨_, run_group_bytes hp h4 hroom ht, groupWord_toNat b0 b1 b2 b3, hb0, hb1, hb2, hb3,
    toNat_add_of_lt s.pos 4 hroom, rfl, rfl, rfl, rfl, rfl, rfl, rfl, rfl, rfl⟩

end Sys2Proof.Machine
end

/-! The layout of the selector word and the unique row it selects (30_encoding.md R100, R101). -/
section
namespace Sys2Proof.Machine

/-! ### The layout of the selector word -/

/-- R100: `sel = rst ++ phase[2:0] ++ cmd_valid ++ in_valid ++ out_ready ++ st_ready`, read back field by field. -/
theorem selector_fields (ph : Phase) (p : Pins) :
    (selector ph p).getLsbD 7 = p.rst ∧ (selector ph p).extractLsb' 4 3 = ph.code ∧
      (selector ph p).getLsbD 3 = p.cmdValid ∧ (selector ph p).getLsbD 2 = p.inValid ∧
      (selector ph p).getLsbD 1 = p.outReady ∧ (selector ph p).getLsbD 0 = p.stReady := by
  obtain ⟨rst, cmdValid, cmdLen, inValid, inData, outReady, stReady⟩ := p
  simp only [selector]
  generalize ph.code = code
  revert rst cmdValid inValid outReady stReady code
  decide

/-! ### The row a selector word decodes to -/

/-- Two rows of the operation map differ in a selector bit that both masks look at. -/
theorem tableRows_pairwise_conflict {w : Nat} (x : InWord w) :
    (tableRows x).Pairwise (fun i j => matchOf i &&& maskOf j ≠ matchOf j &&& maskOf i) := by
  simp [tableRows, matchOf, maskOf]

/-- The operation map is unambiguous: at most one of its rows selects (R101). -/
theorem selects_unique {w : Nat} {x : InWord w} {i j : Instr} (hi : i ∈ tableRows x) (hj : j ∈ tableRows x)
    (hsi : x.sel &&& maskOf i = matchOf i) (hsj : x.sel &&& maskOf j = matchOf j) : i = j := by
  have hagree : matchOf i &&& maskOf j = matchOf j &&& maskOf i := by
    rw [← hsi, ← hsj, BitVec.and_assoc, BitVec.and_assoc, BitVec.and_comm (maskOf i)]
  have hsymm : Std.Symm fun i j => matchOf i &&& maskOf j ≠ matchOf j &&& maskOf i := ⟨fun _ _ h => h.symm⟩
  by_contra hne
  exact (tableRows_pairwise_conflict x).forall hi hj hne hagree

/-- A row of the operation map is what its selector words decode to, and only those (R100). -/
theorem decode_eq_row_iff {w : Nat} {x : InWord w} {i : Instr} (hi : i ∈ tableRows x) :
    decode x = .instr i ↔ x.sel &&& maskOf i = matchOf i := by
  cases hfind : (tableRows x).find? (selects x.sel) with
  | none =>
    have hno := List.find?_eq_none.1 hfind i hi
    simpa [decode, hfind, selects] using hno
  | some j =>
    have hsj : x.sel &&& maskOf j = matchOf j := by simpa [selects] using List.find?_some hfind
    have hj : j ∈ tableRows x := List.mem_of_find?_eq_some hfind
    have hdecode : decode x = .instr j := by simp [decode, hfind]
    rw [hdecode, DecodeResult.instr.injEq]
    exact ⟨fun h => h ▸ hsj, fun hsi => selects_unique hj hi hsj hsi⟩

/-- Settles O2: the fields of the selector word, and one row of the map after the other. -/
theorem selectorWordSelectsTheTenRows : Obligations.SelectorWordSelectsTheTenRows := by
  unfold Obligations.SelectorWordSelectsTheTenRows
  refine ⟨fun s => ?_, selector_fields, by decide, fun w x => ?_⟩
  · exact ⟨rfl, rfl, BitVec.toNat_ofNat _ _, _, decode_sampleWord _ _ _, step_eq s⟩
  · refine ⟨decode_eq_row_iff ?_, decode_eq_row_iff ?_, decode_eq_row_iff ?_, decode_eq_row_iff ?_,
      decode_eq_row_iff ?_, decode_eq_row_iff ?_, decode_eq_row_iff ?_, decode_eq_row_iff ?_,
      decode_eq_row_iff ?_, decode_eq_row_iff ?_⟩ <;> simp [tableRows]

end Sys2Proof.Machine
end

/-! The status word: its layout, and which word a call's length leaves in REPORT (30_encoding.md R95). -/
section
namespace Sys2Proof.Machine

/-! ### The layout of the status word -/

/-- R95: `st_code`, `st_param` and `st_olen`, read back from the packed word. -/
theorem packStatus_fields (w : Nat) (code : BitVec 2) (param : BitVec 3) (olen : BitVec w) :
    (packStatus code param olen).extractLsb' (w + 3) 2 = code ∧
      (packStatus code param olen).extractLsb' w 3 = param ∧
      (packStatus code param olen).extractLsb' 0 w = olen := by
  refine ⟨?_, ?_, ?_⟩
  · rw [packStatus, BitVec.extractLsb'_append_eq_of_le (by omega), Nat.add_sub_cancel_left,
      BitVec.extractLsb'_append_eq_left]
  · rw [packStatus, BitVec.extractLsb'_append_eq_of_le (by omega), Nat.sub_self,
      BitVec.extractLsb'_append_eq_right]
  · rw [packStatus, BitVec.extractLsb'_append_eq_right]

/-! ### The word a call ends with, by its length -/

/-- The registers' three fields are those of the word they hold. -/
theorem State.status?_fields {s : State} {word : Status} (h : s.status? = some word) :
    s.status? = some word ∧ s.err.code = word.code ∧ s.errparam.code = word.param ∧
      s.olen.toNat = word.olen := by
  obtain ⟨hcode, hparam, holen⟩ := statusOf_fields h
  exact ⟨h, hcode.symm, hparam.symm, holen.symm⟩

section
variable {s : State} (h : CallInv s) (hp : s.phase = .report)
include h hp

theorem CallInv.err_eq_lengthCheck : s.err = lengthCheck s.len := h.verdict (by simp [hp])

theorem CallInv.status?_tooLong (hlen : Config.lenLimit s.lenW < s.len.toNat) :
    s.status? = some .tooLong := by
  have herr : s.err = .tooLong := (h.err_eq_lengthCheck hp).trans ((lengthCheck_eq_tooLong _).2 hlen)
  rw [h.status?_eq hp, herr]

theorem CallInv.status?_invalidLength (hlen : s.len.toNat ≤ Config.lenLimit s.lenW)
    (h4 : s.len.toNat % 4 ≠ 0) : s.status? = some .invalidLength := by
  have herr : s.err = .invalidLength :=
    (h.err_eq_lengthCheck hp).trans ((lengthCheck_eq_invalidLength _).2 ⟨hlen, h4⟩)
  rw [h.status?_eq hp, herr]

theorem CallInv.status?_ok (hlen : s.len.toNat ≤ Config.lenLimit s.lenW) (h4 : s.len.toNat % 4 = 0) :
    s.status? = some (Status.ofLength (s.len.toNat + s.len.toNat / 4)) := by
  have herr : s.err = .ok := (h.err_eq_lengthCheck hp).trans ((lengthCheck_eq_ok _).2 ⟨hlen, h4⟩)
  obtain ⟨-, -, -, holen⟩ := h.success hp herr
  rw [h.status?_eq hp, herr, holen]

end

/-- Settles O25: in REPORT `err` is the outcome of the two length checks, so the length decides the word, and the
word decides the registers' fields. -/
theorem statusWordIsOneOfFour : Obligations.StatusWordIsOneOfFour := by
  unfold Obligations.StatusWordIsOneOfFour
  refine ⟨packStatus_fields, fun n => ⟨⟨rfl, rfl, rfl⟩, ⟨rfl, rfl, rfl⟩, ⟨rfl, rfl, rfl⟩, rfl, rfl, rfl⟩,
    fun s h hp => ⟨rfl, fun hlong => ?_, fun hlen h4 => ?_, fun h0 => ?_, fun hpos hlen h4 => ?_⟩⟩
  · exact State.status?_fields (h.status?_tooLong hp hlong)
  · exact State.status?_fields (h.status?_invalidLength hp hlen h4)
  · have hword := h.status?_ok hp (by omega) (by omega)
    rw [h0] at hword
    exact State.status?_fields hword
  · have hword := h.status?_ok hp hlen h4
    rw [Status.ofLength, if_neg (by omega)] at hword
    exact State.status?_fields hword

end Sys2Proof.Machine
end

/-! Which pins a step looks at (30_encoding.md R102). -/
section
namespace Sys2Proof.Machine

/-- `rst` beats everything (R102). -/
theorem selectedOp_reset (w : Nat) (ph : Phase) {p : Pins} (hr : p.rst = true) : selectedOp w ph p = .reset :=
  if_pos hr

/-- Lines that agree on what a phase looks at select the same operation with the same operand. -/
theorem selectedOp_congr (w : Nat) {ph : Phase} {p q : Pins} (h : agreeFor ph p q) :
    selectedOp w ph p = selectedOp w ph q := by
  obtain ⟨hrst, hpins⟩ := h
  cases hr : p.rst with
  | true => rw [selectedOp_reset w ph hr, selectedOp_reset w ph (hrst ▸ hr)]
  | false =>
    have hpins := hpins hr
    have hq : q.rst = false := hrst ▸ hr
    cases ph with
    | idle =>
      obtain ⟨hvalid, hdata⟩ := hpins
      cases hv : p.cmdValid with
      | false => simp [selectedOp, hr, hq, hv, ← hvalid]
      | true => simp [selectedOp, hr, hq, hv, ← hvalid, hdata hv]
    | assemble =>
      obtain ⟨hvalid, hdata⟩ := hpins
      cases hv : p.inValid with
      | false => simp [selectedOp, hr, hq, hv, ← hvalid]
      | true => simp [selectedOp, hr, hq, hv, ← hvalid, hdata hv]
    | convert => simp [selectedOp, hr, hq]
    | emit => simp [selectedOp, hr, hq, show p.outReady = q.outReady from hpins]
    | report => simp [selectedOp, hr, hq, show p.stReady = q.stReady from hpins]

/-- A step that finds a written line uses it up and performs the operation it selects. -/
theorem step_line (s : State) (p : Pins) (rest : List Pins) :
    step { s with trace := p :: rest } = exec (selectedOp s.lenW s.phase p) { s with trace := rest } :=
  step_eq _

/-- Settles O28: a step depends on its line only through the operation the line selects. -/
theorem ignoredPinsHaveNoEffect : Obligations.IgnoredPinsHaveNoEffect := by
  unfold Obligations.IgnoredPinsHaveNoEffect
  constructor
  · intro s p q rest hagree
    rw [step_line, step_line, selectedOp_congr s.lenW hagree]
  · intro s hr
    rw [State.inWord, decode_sampleWord, selectedOp_reset _ _ hr]

end Sys2Proof.Machine
end

/-! The transform as a function: the group's value, the digit loop, the checks and the groups of `encode`
(40_transform.md R131 to R142). -/
section
namespace Sys2Proof.Machine

/-! ### The value of a group is its 32-bit word -/

theorem groupVal_lt (b0 b1 b2 b3 : Byte) : groupVal b0 b1 b2 b3 < 2 ^ 32 :=
  groupWord_toNat b0 b1 b2 b3 ▸ (groupWord b0 b1 b2 b3).isLt

/-- The converse of `groupWord_bytes`: a word is the group of its own four bytes. -/
theorem groupWord_extract (x : Value) :
    groupWord (x.extractLsb' 24 8) (x.extractLsb' 16 8) (x.extractLsb' 8 8) (x.extractLsb' 0 8) = x := by
  apply BitVec.eq_of_toNat_eq
  have hx := x.isLt
  simp only [groupWord_toNat, groupVal, BitVec.extractLsb'_toNat, Nat.shiftRight_eq_div_pow]
  omega

/-- Every number below `2^32` is the value of the four bytes of its word. -/
theorem groupVal_extract {v : Nat} (hv : v < 2 ^ 32) :
    groupVal ((BitVec.ofNat 32 v).extractLsb' 24 8) ((BitVec.ofNat 32 v).extractLsb' 16 8)
      ((BitVec.ofNat 32 v).extractLsb' 8 8) ((BitVec.ofNat 32 v).extractLsb' 0 8) = v := by
  rw [← groupWord_toNat, groupWord_extract, BitVec.toNat_ofNat, Nat.mod_eq_of_lt hv]

/-- Groups of one value have one word, and the word gives the four bytes back. -/
theorem groupVal_inj {a0 a1 a2 a3 b0 b1 b2 b3 : Byte} (h : groupVal a0 a1 a2 a3 = groupVal b0 b1 b2 b3) :
    a0 = b0 ∧ a1 = b1 ∧ a2 = b2 ∧ a3 = b3 := by
  have hword : groupWord a0 a1 a2 a3 = groupWord b0 b1 b2 b3 :=
    BitVec.eq_of_toNat_eq (by rw [groupWord_toNat, groupWord_toNat, h])
  obtain ⟨ha0, ha1, ha2, ha3⟩ := groupWord_bytes a0 a1 a2 a3
  obtain ⟨hb0, hb1, hb2, hb3⟩ := groupWord_bytes b0 b1 b2 b3
  rw [hword] at ha0 ha1 ha2 ha3
  exact ⟨ha0.symm.trans hb0, ha1.symm.trans hb1, ha2.symm.trans hb2, ha3.symm.trans hb3⟩

/-- Settles O47: the value is the number of the group's word, and a word and its four bytes determine each other. -/
theorem groupValueIsABijection : Obligations.GroupValueIsABijection := by
  unfold Obligations.GroupValueIsABijection
  refine ⟨fun b0 b1 b2 b3 => ⟨groupVal_lt b0 b1 b2 b3, rfl⟩, fun v hv => ?_⟩
  refine ⟨(_, _, _, _), groupVal_extract hv, ?_⟩
  rintro ⟨b0, b1, b2, b3⟩ hval
  obtain ⟨rfl, rfl, rfl, rfl⟩ := groupVal_inj (hval.trans (groupVal_extract hv).symm)
  rfl

/-! ### The digit loop -/

/-- `n` iterations of the loop place the `n` lowest digits before what stands there, the highest of them first. -/
theorem digitLoop_eq (n v : Nat) (out : List Byte) :
    digitLoop n v out = ((List.finRange n).map fun k => lastDigitChar (v / 85 ^ (n - 1 - k.val))) ++ out := by
  induction n generalizing v out with
  | zero => rfl
  | succ n ih =>
    have hlater (k : Fin n) : v / 85 / 85 ^ (n - 1 - k.val) = v / 85 ^ (n - k.val) := by
      rw [Nat.div_div_eq_div_mul, ← Nat.pow_succ', show (n - 1 - k.val).succ = n - k.val by omega]
    simp [digitLoop, ih, hlater, List.finRange_succ_last]

theorem runningValue_eq (k v : Nat) : runningValue k v = v / 85 ^ k := by
  induction k generalizing v with
  | zero => simp [runningValue]
  | succ k ih => rw [runningValue, ih, Nat.div_div_eq_div_mul, ← Nat.pow_succ']

/-- Settles O48: five iterations place the digits of weight `85^4` to `85^0`, and `85^5` is above every value. -/
theorem digitLoopPlacesTheFiveDigits : Obligations.DigitLoopPlacesTheFiveDigits := by
  unfold Obligations.DigitLoopPlacesTheFiveDigits
  refine ⟨fun v => ?_, fun v hv => ?_, fun _ _ _ _ => rfl⟩
  · exact (digitLoop_eq 5 v []).trans (List.append_nil _)
  · rw [runningValue_eq]
    exact Nat.div_eq_of_lt (by omega)

/-! ### The checks of `encode` -/

theorem encodeBytes_tooLong {w : Nat} {source : List Byte} (h : Config.lenLimit w < source.length) :
    encodeBytes w source = .tooLong := if_pos h

theorem encodeBytes_invalidLength {w : Nat} {source : List Byte} (h : source.length ≤ Config.lenLimit w)
    (h4 : source.length % 4 ≠ 0) : encodeBytes w source = .invalidLength 4 := by
  rw [encodeBytes, if_neg (Nat.not_lt_of_le h), if_pos h4]

/-- `encode` answers a string exactly when both checks pass, and then the characters of the groups. -/
theorem encodeBytes_eq_ok_iff {w : Nat} {source chars : List Byte} :
    encodeBytes w source = .ok chars ↔
      source.length ≤ Config.lenLimit w ∧ source.length % 4 = 0 ∧ encGroups source = chars := by
  by_cases hlimit : source.length ≤ Config.lenLimit w
  · by_cases h4 : source.length % 4 = 0
    · simp [encodeBytes_ok w source hlimit h4, hlimit, h4]
    · simp [encodeBytes_invalidLength hlimit h4, h4]
  · simp [encodeBytes_tooLong (Nat.lt_of_not_le hlimit), hlimit]

/-- Settles O51: one equation of `encode` per check, and the empty source passes both. -/
theorem encodeMakesTheChecksInOrder : Obligations.EncodeMakesTheChecksInOrder := by
  unfold Obligations.EncodeMakesTheChecksInOrder
  exact fun w source => ⟨encodeBytes_tooLong, encodeBytes_invalidLength,
    encodeBytes_eq_ok_iff.2 ⟨Nat.zero_le _, rfl, rfl⟩⟩

/-! ### The groups of a source -/

theorem encGroup_getElem? (b0 b1 b2 b3 : Byte) (k : Fin 5) :
    (encGroup b0 b1 b2 b3)[k.val]? = some (alpha (digitAt (groupVal b0 b1 b2 b3) k)) := by
  simp [encGroup_eq]

/-- Character `5g + k` is that of digit `k` of group `g` (R138). -/
theorem encGroups_getElem? (k : Fin 5) {b0 b1 b2 b3 : Byte} : ∀ (source : List Byte) (g : Nat),
    source[4 * g]? = some b0 → source[4 * g + 1]? = some b1 → source[4 * g + 2]? = some b2 →
    source[4 * g + 3]? = some b3 →
    (encGroups source)[5 * g + k.val]? = some (alpha (digitAt (groupVal b0 b1 b2 b3) k))
  | [], g, _, _, _, h3 | [_], g, _, _, _, h3 | [_, _], g, _, _, _, h3 | [_, _, _], g, _, _, _, h3 => by
    simp at h3
  | a0 :: a1 :: a2 :: a3 :: rest, 0, h0, h1, h2, h3 => by
    obtain rfl : a0 = b0 := Option.some.inj h0
    obtain rfl : a1 = b1 := Option.some.inj h1
    obtain rfl : a2 = b2 := Option.some.inj h2
    obtain rfl : a3 = b3 := Option.some.inj h3
    rw [encGroups, Nat.mul_zero, Nat.zero_add, List.getElem?_append_left (by simp), encGroup_getElem?]
  | a0 :: a1 :: a2 :: a3 :: rest, g + 1, h0, h1, h2, h3 => by
    have hrest := encGroups_getElem? k rest g h0 h1 h2 h3
    rw [encGroups, List.getElem?_append_right (by rw [encGroup_length]; omega), encGroup_length, ← hrest]
    congr 1
    omega

/-- Settles O52: a valid source gives the groups' characters, five for each four bytes. -/
theorem encodeConcatenatesTheGroups : Obligations.EncodeConcatenatesTheGroups := by
  unfold Obligations.EncodeConcatenatesTheGroups
  intro w source hlimit h4
  refine ⟨encGroups source, encodeBytes_ok w source hlimit h4, ?_, fun g k _ _ _ _ => encGroups_getElem? k source g⟩
  rw [encGroups_length source h4]
  omega

theorem encGroup_inAlphabet {b0 b1 b2 b3 c : Byte} (h : c ∈ encGroup b0 b1 b2 b3) : InAlphabet c := by
  rw [encGroup_eq] at h
  obtain ⟨k, -, rfl⟩ := List.mem_map.1 h
  exact alpha_mem _

theorem encGroups_inAlphabet {c : Byte} : ∀ source : List Byte, c ∈ encGroups source → InAlphabet c
  | [], h | [_], h | [_, _], h | [_, _, _], h => by simp [encGroups] at h
  | b0 :: b1 :: b2 :: b3 :: rest, h => by
    rw [encGroups, List.mem_append] at h
    exact h.elim encGroup_inAlphabet (encGroups_inAlphabet rest)

/-- Settles O53: a string is the groups' characters, and each of them is a digit's entry of the table. -/
theorem encodeStaysInTheAlphabet : Obligations.EncodeStaysInTheAlphabet := by
  unfold Obligations.EncodeStaysInTheAlphabet
  intro w source chars hok c hc
  obtain ⟨-, -, rfl⟩ := encodeBytes_eq_ok_iff.1 hok
  exact encGroups_inAlphabet source hc

/-- Settles O54: the three lengths pass the checks, and the groups of a concatenation are those of its parts. -/
theorem encodeOfAConcatenation : Obligations.EncodeOfAConcatenation := by
  unfold Obligations.EncodeOfAConcatenation
  intro w a b ha hb hlimit
  have hlength : (a ++ b).length = a.length + b.length := List.length_append
  refine ⟨encGroups a, encGroups b, encodeBytes_ok w a (by omega) ha, encodeBytes_ok w b (by omega) hb, ?_⟩
  rw [encodeBytes_ok w (a ++ b) hlimit (by omega), encGroups_append a b ha]

end Sys2Proof.Machine
end

/-! The WAIT operations and the runs made of them (41_command.md R166, 42_assemble.md R172, 44_emit.md R192,
45_report.md R202). -/
section
namespace Sys2Proof.Machine

/-- The written lines, as long as they are WAITs of the phase, are used up and nothing else changes. -/
theorem run_waits {lines rest : List Pins} {s : State}
    (hwait : ∀ p ∈ lines, p.rst = false ∧ progresses s.phase p = false) (ht : s.trace = lines ++ rest) :
    runSteps lines.length s = .next { s with trace := rest } := by
  induction lines generalizing s with
  | nil =>
    obtain rfl : s.trace = rest := ht
    rfl
  | cons p lines ih =>
    obtain ⟨⟨hr, hw⟩, hlines⟩ := List.forall_mem_cons.1 hwait
    rw [← State.line_cons ht] at hr hw
    have hstep := (step_wait hr hw).trans (congrArg _ (State.advance_cons ht))
    exact (run_succ hstep).trans (ih (s := { s with trace := lines ++ rest }) hlines rfl)

/-- Settles O17: with its pin at 0 a phase selects its WAIT, and WAIT lines are used up one after the other. -/
theorem waitsKeepEveryRegister : Obligations.WaitsKeepEveryRegister := by
  unfold Obligations.WaitsKeepEveryRegister
  refine ⟨fun s => ⟨rfl, rfl, rfl, rfl⟩, fun s hr => ?_, fun s lines rest hwait ht => ⟨run_waits hwait ht, rfl⟩⟩
  rw [State.inWord, decode_sampleWord]
  refine ⟨?_, ?_, ?_, ?_⟩ <;> intro hp hpin <;> simp [selectedOp, hr, hp, hpin]

end Sys2Proof.Machine
end

/-! Stage S0 VALIDATE: the paths of ACCEPT, the empty call and the failed call (41_command.md R160 to R165,
60_exceptions.md R238). -/
section
namespace Sys2Proof.Machine

/-! ### ACCEPT as one record on each path -/

/-- ACCEPT sees the low LEN_W bits of the number presented (R274). -/
theorem execAccept_mod (cmdLen : Nat) (s : State) :
    execAccept (cmdLen % 2 ^ s.lenW) s = execAccept cmdLen s := by
  have hl : BitVec.ofNat s.lenW (cmdLen % 2 ^ s.lenW) = BitVec.ofNat s.lenW cmdLen := by
    rw [← BitVec.toNat_inj, BitVec.toNat_ofNat, BitVec.toNat_ofNat, Nat.mod_mod]
  unfold execAccept
  rw [hl]

/-- A written line with a command, taken in IDLE, is an ACCEPT of its number. -/
theorem step_command {s : State} {command : Pins} {ps : List Pins} (ht : s.trace = command :: ps)
    (hp : s.phase = .idle) (hr : command.rst = false) (hv : command.cmdValid = true) :
    step s = execAccept command.cmdLen { s with trace := ps } := by
  rw [← State.line_cons ht] at hr hv
  rw [step_idle hr hp, if_pos hv, State.line_cons ht, State.advance_cons ht]
  exact execAccept_mod command.cmdLen { s with trace := ps }

/-- ACCEPT of a length that fails a check, either kind: the kind with its parameter goes to REPORT (R164). -/
theorem execAccept_failure {cmdLen : Nat} {s : State} {k : ErrKind}
    (hk : lengthCheck (BitVec.ofNat s.lenW cmdLen) = k) (hne : k ≠ .ok) :
    execAccept cmdLen s = .next { s with
      len := BitVec.ofNat s.lenW cmdLen, pos := 0#s.lenW, acc := 0#32, slot := 4, err := k,
      errparam := k.param, olen := 0#s.lenW, phase := .report,
      events := s.events ++ [.cmd (BitVec.ofNat s.lenW cmdLen).toNat] } := by
  cases k with
  | ok => exact absurd rfl hne
  | tooLong => exact execAccept_tooLong ((lengthCheck_eq_tooLong _).1 hk)
  | invalidLength =>
    obtain ⟨hlimit, h4⟩ := (lengthCheck_eq_invalidLength _).1 hk
    exact execAccept_invalidLength hlimit h4

/-- Settles O11: a command in IDLE selects ACCEPT, and the checks in order lead to the record of their path. -/
theorem acceptValidatesInOrder : Obligations.AcceptValidatesInOrder := by
  unfold Obligations.AcceptValidatesInOrder
  refine ⟨fun s hr hp hv => ?_, fun s cmdLen => ?_⟩
  · rw [step_idle hr hp, if_pos hv]
    rfl
  · change execAccept cmdLen s = _
    split_ifs with hlong h4 h0
    · exact execAccept_tooLong hlong
    · exact execAccept_invalidLength (Nat.le_of_not_lt hlong) h4
    · exact execAccept_empty h0
    · exact execAccept_start (Nat.le_of_not_lt hlong) (not_not.1 h4) h0

/-! ### The path to ASSEMBLE -/

/-- Only a length that passes both checks and is not 0 leads to ASSEMBLE, with its result length in `olen`. -/
theorem execAccept_assemble {cmdLen : Nat} {s t : State} (h : execAccept cmdLen s = .next t)
    (hp : t.phase = .assemble) : t.len.toNat ≠ 0 ∧ t.len.toNat ≤ Config.lenLimit t.lenW ∧
      t.olen = resultLength t.len := by
  obtain ⟨k, -, -, rfl⟩ | ⟨-, -, rfl⟩ | ⟨hok, h0, rfl⟩ := execAccept_cases h
  · cases hp
  · cases hp
  · exact ⟨h0, ((lengthCheck_eq_ok _).1 hok).1, rfl⟩

/-- On the paths that do not lead to ASSEMBLE the result is empty. -/
theorem execAccept_olen_zero {cmdLen : Nat} {s t : State} (h : execAccept cmdLen s = .next t)
    (hp : t.phase ≠ .assemble) : t.olen.toNat = 0 := by
  obtain ⟨k, -, -, rfl⟩ | ⟨-, -, rfl⟩ | ⟨-, -, rfl⟩ := execAccept_cases h
  · simp
  · simp
  · exact absurd rfl hp

theorem execAccept_lenW {cmdLen : Nat} {s t : State} (h : execAccept cmdLen s = .next t) : t.lenW = s.lenW := by
  obtain ⟨k, -, -, rfl⟩ | ⟨-, -, rfl⟩ | ⟨-, -, rfl⟩ := execAccept_cases h <;> rfl

/-- Settles O12: a length within LEN_LIMIT leaves room for five times itself. -/
theorem acceptResultLengthCannotOverflow : Obligations.AcceptResultLengthCannotOverflow := by
  unfold Obligations.AcceptResultLengthCannotOverflow
  intro s cmdLen
  obtain ⟨t, ht, -⟩ := execAccept_records cmdLen s
  refine ⟨t, ht, fun hp => ?_, execAccept_olen_zero ht⟩
  obtain ⟨-, hlimit, holen⟩ := execAccept_assemble ht hp
  have hroom := lenLimit_mul t.lenW
  rw [holen, resultLength_toNat _ hlimit, ← execAccept_lenW ht]
  omega

/-! ### A call in its pipeline has bytes to take -/

/-- In the three phases of the pipeline the call's length is not 0 (R165, R216). -/
def State.nonemptyWhenBusy (s : State) : Prop :=
  s.phase = .assemble ∨ s.phase = .convert ∨ s.phase = .emit → s.len.toNat ≠ 0

theorem RegInv.nonemptyWhenBusy {s : State} (h : RegInv s) : s.nonemptyWhenBusy := by
  intro hbusy
  obtain ⟨-, hpos, -⟩ := h.busy hbusy
  exact Nat.ne_of_gt hpos

/-- ACCEPT enters the pipeline with a length that is not 0, the operations of the pipeline keep the length, and RESET
and REPORT leave the pipeline. -/
theorem step_keeps_nonemptyWhenBusy {s t : State} (hs : s.nonemptyWhenBusy) (h : step s = .next t) :
    t.nonemptyWhenBusy := by
  refine step_keeps (P := State.nonemptyWhenBusy) (fun _ hs => hs) ?_ ?_ ?_ ?_ ?_ ?_ hs h
  · simp [State.nonemptyWhenBusy]
  · intro s cmdLen t _ _ h hbusy
    obtain ⟨k, -, -, rfl⟩ | ⟨-, -, rfl⟩ | ⟨-, h0, rfl⟩ := execAccept_cases h
    · simp at hbusy
    · simp at hbusy
    · exact h0
  · intro s b t hs hp h _
    cases (execShiftin_eq b s).symm.trans h
    exact hs (.inl hp)
  · intro s t hs hp h _
    cases (execDivstep_eq s).symm.trans h
    exact hs (.inr (.inl hp))
  · intro s t hs hp h _
    cases (execEmit_eq s).symm.trans h
    exact hs (.inr (.inr hp))
  · simp [State.nonemptyWhenBusy]

/-! ### The end of a call -/

/-- In REPORT, a written line that takes the status hands the word over (R200). -/
theorem step_handOver {s : State} {word : Status} {last : Pins} {ps : List Pins} (hp : s.phase = .report)
    (hword : s.status? = some word) (ht : s.trace = last :: ps) (hr : last.rst = false)
    (hv : last.stReady = true) : step s = .next ({ s with trace := ps }.handOverStatus word) := by
  rw [← State.line_cons ht] at hr hv
  rw [step_report hr hp, if_pos hv, execReport_some (s.advance_status?.trans hword), State.advance_cons ht]

/-- In REPORT, any WAIT_ACKs and the line that takes the status: the word is handed over, and nothing else of the
registers but `phase` changes (R200, R202). -/
theorem run_handOver {waits rest : List Pins} {last : Pins} {s : State} {word : Status}
    (hp : s.phase = .report) (hword : s.status? = some word)
    (hwaits : ∀ p ∈ waits, p.rst = false ∧ p.stReady = false) (hr : last.rst = false)
    (hv : last.stReady = true) (ht : s.trace = waits ++ last :: rest) :
    runSteps (waits.length + 1) s = .next { s with
      phase := .idle, events := s.events ++ [.status word], trace := rest } := by
  have hwait : ∀ p ∈ waits, p.rst = false ∧ progresses s.phase p = false := by
    simpa only [hp, progresses] using hwaits
  have hstep := step_handOver (s := { s with trace := last :: rest }) hp hword rfl hr hv
  exact (run_add (run_waits hwait ht)).trans (run_succ hstep)

/-- Settles O16: the empty call has the empty status word, and a state of the pipeline never has `len = 0`. -/
theorem emptyCallReportsAtOnce : Obligations.EmptyCallReportsAtOnce := by
  unfold Obligations.EmptyCallReportsAtOnce
  have hzero (w : Nat) : (BitVec.ofNat w 0).toNat = 0 := Nat.zero_mod _
  refine ⟨fun s => ?_, fun s rest hp ht => ?_, fun s t cmdLen h hp => ?_, fun s t hs h hp => ?_⟩
  · exact ⟨_, execAccept_empty (hzero _), rfl, hzero _, rfl⟩
  · have hstep := (step_command ht hp rfl rfl).trans (execAccept_empty (hzero s.lenW))
    refine ⟨_, (run_succ hstep).trans (run_handOver (waits := []) (word := .empty) rfl ?_ ?_ rfl rfl rfl), rfl, ?_⟩
    · simp [State.status?, statusOf, isResultLength, Status.ofLength]
    · simp
    · simp [lineCmd]
  · exact (execAccept_assemble h hp).1
  · exact step_keeps_nonemptyWhenBusy hs.nonemptyWhenBusy h (.inl hp)

/-- A failed call of either kind, with any WAIT_ACKs before its status is taken (R164, R238). -/
theorem run_failed_call {s : State} {command last : Pins} {waits rest : List Pins} {k : ErrKind} {word : Status}
    (hk : lengthCheck (BitVec.ofNat s.lenW command.cmdLen) = k) (hne : k ≠ .ok)
    (hword : statusOf k k.param (0#s.lenW) = some word) (hp : s.phase = .idle) (hr : command.rst = false)
    (hv : command.cmdValid = true) (hwaits : ∀ p ∈ waits, p.rst = false ∧ p.stReady = false)
    (hlr : last.rst = false) (hlv : last.stReady = true) (ht : s.trace = command :: (waits ++ last :: rest)) :
    runSteps (waits.length + 2) s = .next { s with
      len := BitVec.ofNat s.lenW command.cmdLen, pos := 0#s.lenW, acc := 0#32, slot := 4, err := k,
      errparam := k.param, olen := 0#s.lenW,
      events := s.events ++ [.cmd (BitVec.ofNat s.lenW command.cmdLen).toNat, .status word],
      trace := rest } := by
  have hstep := (step_command ht hp hr hv).trans (execAccept_failure hk hne)
  refine (run_succ hstep).trans
    ((run_handOver (rest := rest) (word := word) ?_ ?_ hwaits hlr hlv ?_).trans ?_)
  · rfl
  · exact hword
  · rfl
  · simp [hp]

/-- Settles O43: the failing ACCEPT records its `Cmd` alone, and the run of the failed call is the same for both
kinds. -/
theorem failedCallHandsOverOnlyItsStatus : Obligations.FailedCallHandsOverOnlyItsStatus := by
  unfold Obligations.FailedCallHandsOverOnlyItsStatus
  intro s command last waits rest l hp hr hv hwaits hlr hlv ht
  refine ⟨fun hfail => ?_, fun hlong => ?_, fun hlimit h4 => ?_⟩
  · have hne : lengthCheck l ≠ .ok := by
      rw [ne_eq, lengthCheck_eq_ok]
      omega
    exact ⟨_, (step_command ht hp hr hv).trans (execAccept_failure rfl hne), rfl, rfl, rfl⟩
  · exact run_failed_call ((lengthCheck_eq_tooLong l).2 hlong) (by decide) (by simp [statusOf, ErrKind.param])
      hp hr hv hwaits hlr hlv ht
  · exact run_failed_call ((lengthCheck_eq_invalidLength l).2 ⟨hlimit, h4⟩) (by decide)
      (by simp [statusOf, ErrKind.param]) hp hr hv hwaits hlr hlv ht

end Sys2Proof.Machine
end

/-! Stage S1 ASSEMBLE: what SHIFTIN takes and writes (42_assemble.md R170). -/
section
namespace Sys2Proof.Machine

/-! ### SHIFTIN by the byte's place in its group -/

/-- A byte that does not complete its group is shifted in and counted; `phase` and `slot` stay. -/
theorem execShiftin_inside {s : State} {b : Byte} (h4 : (s.pos + 1#s.lenW).toNat % 4 ≠ 0) :
    execShiftin b s = .next { s with
      acc := shiftByte s.acc b, pos := s.pos + 1#s.lenW, events := s.events ++ [.byte b] } := by
  simp only [execShiftin_eq, isGroupAligned_iff, h4, if_false]

/-- The byte that completes its group also selects CONVERT, at the last slot. -/
theorem execShiftin_last {s : State} {b : Byte} (h4 : (s.pos + 1#s.lenW).toNat % 4 = 0) :
    execShiftin b s = .next { s with
      acc := shiftByte s.acc b, pos := s.pos + 1#s.lenW, phase := .convert, slot := 4,
      events := s.events ++ [.byte b] } := by
  simp only [execShiftin_eq, isGroupAligned_iff, h4, if_true]

/-- Settles O18: a byte offered in ASSEMBLE selects SHIFTIN, the call invariant counts the bytes before it, and the
new `pos` decides whether the group is complete. -/
theorem shiftinTakesTheNextByte : Obligations.ShiftinTakesTheNextByte := by
  unfold Obligations.ShiftinTakesTheNextByte
  refine ⟨fun s hr hp hv => ?_, fun s hs hp => hs.count (by simp [hp]), fun s b => ?_⟩
  · rw [step_assemble hr hp, if_pos hv]
    rfl
  · change execShiftin b s = _
    split_ifs with h4
    · exact execShiftin_last h4
    · exact execShiftin_inside h4

end Sys2Proof.Machine
end

/-! Stage S2 CONVERT: DIVSTEP and the five of a group (43_convert.md R180 to R183). -/
section
namespace Sys2Proof.Machine

/-! ### DIVSTEP by the slot it fills -/

/-- The walk of `slot` towards 0, where it stays (R25, R180). -/
theorem slotBefore_getD_val (k : Fin 5) : ((slotBefore k).getD 0).val = k.val - 1 := by
  revert k
  decide

/-- A DIVSTEP above slot 0 goes on to the next lower slot. -/
theorem execDivstep_inside {s : State} (h0 : s.slot.val ≠ 0) :
    execDivstep s = .next { s with
      obuf := s.obuf.set s.slot (alpha (digitOf s.acc)), acc := quotientOf s.acc,
      slot := ⟨s.slot.val - 1, by omega⟩ } := by
  have hslot : (slotBefore s.slot).getD 0 = ⟨s.slot.val - 1, by omega⟩ := Fin.ext (slotBefore_getD_val s.slot)
  rw [execDivstep_eq, hslot, if_neg (Fin.val_ne_iff.1 h0)]

/-- The DIVSTEP that finds slot 0 goes on to EMIT and leaves `slot` there. -/
theorem execDivstep_last {s : State} (h0 : s.slot.val = 0) :
    execDivstep s = .next { s with
      obuf := s.obuf.set s.slot (alpha (digitOf s.acc)), acc := quotientOf s.acc, phase := .emit } := by
  have hslot : (slotBefore s.slot).getD 0 = s.slot := Fin.ext (by rw [slotBefore_getD_val]; omega)
  rw [execDivstep_eq, hslot, if_pos (Fin.ext h0)]

/-- Settles O20: no handshake pin takes part in the selection, and slot 0 is the last of the walk. -/
theorem divstepPlacesOneDigit : Obligations.DivstepPlacesOneDigit := by
  unfold Obligations.DivstepPlacesOneDigit
  refine ⟨fun _ => step_convert, fun s => ?_⟩
  change execDivstep s = _
  split_ifs with h0
  · exact execDivstep_last h0
  · exact execDivstep_inside h0

/-! ### The DIVSTEPs of a group -/

/-- The buffer when the `n` lowest digits of `v` have been placed over the contents `buf` (R219): the last `n`
positions hold their characters. -/
def placeDigits (v : Nat) (buf : Vector Byte 5) (n : Nat) : Vector Byte 5 :=
  Vector.ofFn fun k => if 4 - k.val < n then alpha (digitAt v k) else buf[k]

theorem placeDigits_getElem (v : Nat) (buf : Vector Byte 5) (n : Nat) (k : Fin 5) :
    (placeDigits v buf n)[k] = if 4 - k.val < n then alpha (digitAt v k) else buf[k] := by
  simp [placeDigits]

theorem placeDigits_zero (v : Nat) (buf : Vector Byte 5) : placeDigits v buf 0 = buf := by
  refine Vector.ext fun i hi => ?_
  simp [placeDigits]

theorem placeDigits_five (v : Nat) (buf : Vector Byte 5) :
    placeDigits v buf 5 = Vector.ofFn fun k => alpha (digitAt v k) := by
  refine Vector.ext fun i hi => ?_
  simp [placeDigits, show 4 - i < 5 by omega]

/-- The next digit goes to the highest position not yet filled. -/
theorem placeDigits_set (v : Nat) (buf : Vector Byte 5) {n : Nat} {k : Fin 5} (hk : k.val + n = 4) :
    (placeDigits v buf n).set k (alpha (digitAt v k)) = placeDigits v buf (n + 1) := by
  refine Vector.ext fun i hi => ?_
  rw [Vector.getElem_set]
  simp only [placeDigits, Vector.getElem_ofFn]
  by_cases hik : k.val = i
  · subst hik
    rw [if_pos rfl, if_pos (by omega)]
  · have hsame : 4 - i < n + 1 ↔ 4 - i < n := by omega
    simp only [if_neg hik, hsame]

/-- The state after `n` DIVSTEPs of a group, `s` before the first, with the lines `rest` still to come (R181). -/
def State.afterDivsteps (s : State) (n : Nat) (rest : List Pins) : State :=
  { s with
    phase := if n < 5 then .convert else .emit
    slot := ⟨4 - n, by omega⟩
    acc := BitVec.ofNat 32 (s.acc.toNat / 85 ^ n)
    obuf := placeDigits s.acc.toNat s.obuf n
    trace := rest }

/-- The value in hand never outgrows the register (R136). -/
theorem State.afterDivsteps_acc_toNat (s : State) (n : Nat) (rest : List Pins) :
    (s.afterDivsteps n rest).acc.toNat = s.acc.toNat / 85 ^ n := by
  have hle : s.acc.toNat / 85 ^ n ≤ s.acc.toNat := Nat.div_le_self _ _
  exact Nat.mod_eq_of_lt (Nat.lt_of_le_of_lt hle s.acc.isLt)

theorem State.afterDivsteps_zero {s : State} (hp : s.phase = .convert) (h4 : s.slot = 4) :
    s.afterDivsteps 0 s.trace = s := by
  have hslot : (⟨4 - 0, by omega⟩ : Fin 5) = s.slot := h4.symm
  simp [State.afterDivsteps, placeDigits_zero, hslot, ← hp]

/-- The state after the fifth DIVSTEP: the value is exhausted, since `85^5 > 2^32` (R182). -/
theorem State.afterDivsteps_five (s : State) (rest : List Pins) :
    s.afterDivsteps 5 rest = { s with
      phase := .emit, slot := 0, acc := 0#32,
      obuf := Vector.ofFn fun k => alpha (digitAt s.acc.toNat k), trace := rest } := by
  have hexhausted : s.acc.toNat / 85 ^ 5 = 0 := Nat.div_eq_of_lt (Nat.lt_trans s.acc.isLt (by decide))
  rw [State.afterDivsteps, placeDigits_five, hexhausted]
  rfl

/-- The digit in hand is the one that belongs to the slot in hand (R181). -/
theorem State.afterDivsteps_digitOf (s : State) {n : Nat} (hn : n < 5) (rest : List Pins) :
    digitOf (s.afterDivsteps n rest).acc = digitAt s.acc.toNat (s.afterDivsteps n rest).slot := by
  have hn4 : 4 - (s.afterDivsteps n rest).slot.val = n := Nat.sub_sub_self (Nat.le_of_lt_succ hn)
  apply Fin.ext
  simp only [digitOf_val, s.afterDivsteps_acc_toNat, digitAt, hn4]

theorem State.afterDivsteps_quotientOf (s : State) (n : Nat) (rest : List Pins) :
    quotientOf (s.afterDivsteps n rest).acc = (s.afterDivsteps (n + 1) rest).acc := by
  apply BitVec.eq_of_toNat_eq
  rw [quotientOf_toNat, s.afterDivsteps_acc_toNat, s.afterDivsteps_acc_toNat, Nat.div_div_eq_div_mul, Nat.pow_succ]

theorem State.execDivstep_afterDivsteps (s : State) {n : Nat} (hn : n < 5) (rest : List Pins) :
    execDivstep (s.afterDivsteps n rest) = .next (s.afterDivsteps (n + 1) rest) := by
  have hobuf : (s.afterDivsteps n rest).obuf.set (s.afterDivsteps n rest).slot
      (alpha (digitOf (s.afterDivsteps n rest).acc)) = (s.afterDivsteps (n + 1) rest).obuf := by
    rw [s.afterDivsteps_digitOf hn]
    exact placeDigits_set _ _ (Nat.sub_add_cancel (Nat.le_of_lt_succ hn))
  have hphase : (if (s.afterDivsteps n rest).slot = 0 then .emit else (s.afterDivsteps n rest).phase) =
      (s.afterDivsteps (n + 1) rest).phase := by
    have hlast : (⟨4 - n, by omega⟩ : Fin 5) = 0 ↔ ¬ n + 1 < 5 := by
      simp only [Fin.ext_iff, Fin.val_zero]
      omega
    simp only [State.afterDivsteps, hlast, hn, if_true, ite_not]
  have hslot : (slotBefore (s.afterDivsteps n rest).slot).getD 0 = (s.afterDivsteps (n + 1) rest).slot :=
    Fin.ext (slotBefore_getD_val _)
  rw [execDivstep_eq, hobuf, hphase, hslot, s.afterDivsteps_quotientOf]
  rfl

/-- One more line is one more DIVSTEP. -/
theorem State.step_afterDivsteps (s : State) {n : Nat} (hn : n < 5) {p : Pins} (hr : p.rst = false)
    (rest : List Pins) :
    step (s.afterDivsteps n (p :: rest)) = .next (s.afterDivsteps (n + 1) rest) := by
  have hline : (s.afterDivsteps n (p :: rest)).line.rst = false := hr
  exact (step_convert hline (if_pos hn)).trans (s.execDivstep_afterDivsteps hn rest)

/-- Up to five lines with `rst = 0` in CONVERT are as many DIVSTEPs, whatever their other pins are (R183). -/
theorem run_divsteps {s : State} {lines rest : List Pins} (hp : s.phase = .convert) (h4 : s.slot = 4)
    (hlen : lines.length ≤ 5) (hr : ∀ p ∈ lines, p.rst = false) (ht : s.trace = lines ++ rest) :
    runSteps lines.length s = .next (s.afterDivsteps lines.length rest) := by
  induction lines using List.reverseRecOn generalizing rest with
  | nil =>
    obtain rfl : s.trace = rest := ht
    exact congrArg _ (State.afterDivsteps_zero hp h4).symm
  | append_singleton lines p ih =>
    rw [List.length_append, List.length_singleton] at hlen ⊢
    obtain ⟨hlines, hlast⟩ := List.forall_mem_append.1 hr
    have hbefore := ih (rest := p :: rest) (by omega) hlines (by simpa using ht)
    exact (run_add hbefore).trans (run_succ (s.step_afterDivsteps hlen (hlast p (by simp)) rest))

/-- Settles O21: the run of the five lines, the digit loop's closed form, and the runs of fewer lines. -/
theorem fiveDivstepsFillTheBuffer : Obligations.FiveDivstepsFillTheBuffer := by
  unfold Obligations.FiveDivstepsFillTheBuffer
  intro s lines rest hp h4 hlen hr ht
  refine ⟨?_, ?_, fun n hn => ⟨s.afterDivsteps n (lines.drop n ++ rest), ?_, ?_⟩⟩
  · have hrun := run_divsteps hp h4 (Nat.le_of_eq hlen) hr ht
    rwa [hlen, State.afterDivsteps_five] at hrun
  · obtain ⟨hloop, -, -⟩ := digitLoopPlacesTheFiveDigits
    rw [hloop, Vector.toList_ofFn, List.ofFn_eq_map]
  · have htake : (lines.take n).length = n := List.length_take_of_le (by omega)
    have hrun := run_divsteps (lines := lines.take n) (rest := lines.drop n ++ rest) hp h4 (by omega)
      (fun p hmem => hr p (List.mem_of_mem_take hmem))
      (by rw [← List.append_assoc, List.take_append_drop, ht])
    rwa [htake] at hrun
  · have hphase : (s.afterDivsteps n (lines.drop n ++ rest)).phase = .convert := if_pos hn
    refine ⟨hphase, rfl, s.afterDivsteps_acc_toNat n _, rfl, fun k => ?_, ?_⟩
    · have habove : (⟨4 - n, by omega⟩ : Fin 5) < k ↔ 4 - k.val < n := by
        simp only [Fin.lt_def]
        omega
      simp only [State.afterDivsteps, placeDigits_getElem, habove]
    · simp [hphase]

end Sys2Proof.Machine
end

/-! Stage S3 EMIT: the character sent and the walk of the slots (44_emit.md R190, R191). -/
section
namespace Sys2Proof.Machine

/-! ### EMIT by the slot it sends -/

/-- The walk of `slot` up to 4, where it stays (R25, R190). -/
theorem slotAfter_getD_val (k : Fin 5) : ((slotAfter k).getD 4).val = min (k.val + 1) 4 := by
  revert k
  decide

/-- An EMIT below slot 4 goes on to the next slot and stays in the phase. -/
theorem execEmit_inside {s : State} (h4 : s.slot.val ≠ 4) :
    execEmit s = .next { s with
      slot := ⟨s.slot.val + 1, by omega⟩, events := s.events ++ [.char s.obuf[s.slot]] } := by
  have hslot : (slotAfter s.slot).getD 4 = ⟨s.slot.val + 1, by omega⟩ :=
    Fin.ext (by rw [slotAfter_getD_val]; exact Nat.min_eq_left (by omega))
  rw [execEmit_eq, hslot, if_neg (Fin.val_ne_iff.1 h4)]

/-- The EMIT of slot 4 leaves `slot` there and makes the end-of-source test (R191). -/
theorem execEmit_last {s : State} (h4 : s.slot.val = 4) :
    execEmit s = .next { s with
      phase := if s.pos = s.len then .report else .assemble,
      events := s.events ++ [.char s.obuf[s.slot]] } := by
  have hslot : (slotAfter s.slot).getD 4 = s.slot := Fin.ext (by rw [slotAfter_getD_val, h4]; rfl)
  rw [execEmit_eq, hslot, if_pos (Fin.ext h4)]

/-! ### The characters sent before an EMIT -/

section
variable {s : State} (h : CallInv s) (hp : s.phase = .emit)
include h hp

/-- The bytes of the call in EMIT: those of the finished groups, and the four of the group in hand. -/
theorem CallInv.emit_bytes_length :
    ((callBytes s.events).take s.groupStart).length = s.pos.toNat - 4 ∧ s.groupBytes.length = 4 := by
  have hcount : (callBytes s.events).length = s.pos.toNat := h.count (by simp [hp])
  have hstart : s.groupStart = s.pos.toNat - 4 := by simp [State.groupStart, hp]
  obtain ⟨-, hpos⟩ := h.wholeGroups (.inr hp)
  rw [State.groupBytes, List.length_take, List.length_drop, hcount, hstart]
  omega

/-- In EMIT the call has sent the finished groups and the first `slot` characters of the group in hand (R219). -/
theorem CallInv.emit_callChars :
    callChars s.events = encGroups ((callBytes s.events).take s.groupStart) ++
      (encGroups s.groupBytes).take s.slot.val := by
  have hhistory : callTail s.events = s.expectedTail := h.history (by simp [hp])
  rw [callChars, hhistory, State.expectedTail, if_pos hp, charsOf_append, charsOf_append, charsOf_groupEvents,
    charsOf_map_byte, charsOf_map_char, List.append_nil]

/-- The DST index of the character in hand (R190): five for each finished group, and `slot` of the one in hand. -/
theorem CallInv.emit_callChars_length :
    (callChars s.events).length = 5 * (s.pos.toNat / 4 - 1) + s.slot.val := by
  obtain ⟨hbefore, hgroup⟩ := h.emit_bytes_length hp
  obtain ⟨h4, -⟩ := h.wholeGroups (.inr hp)
  have hchars : (encGroups s.groupBytes).length = 5 := by rw [encGroups_length _ (by omega), hgroup]
  rw [h.emit_callChars hp, List.length_append, List.length_take, hchars, encGroups_length _ (by omega), hbefore]
  omega

end

/-- Settles O22: a ready sink in EMIT selects EMIT, the call invariant counts the characters before it, and the
slot in hand decides whether the group ends. -/
theorem emitSendsTheOfferedCharacter : Obligations.EmitSendsTheOfferedCharacter := by
  unfold Obligations.EmitSendsTheOfferedCharacter
  refine ⟨fun s hr hp hv => ?_, fun s hs hp => hs.emit_callChars_length hp, fun s => ?_⟩
  · rw [step_emit hr hp, if_pos hv]
    rfl
  · change execEmit s = _
    split_ifs with h4 hend
    · rw [execEmit_last h4, if_pos hend]
    · rw [execEmit_last h4, if_neg hend]
    · exact execEmit_inside h4

end Sys2Proof.Machine
end

/-! Stage S4 REPORT: the status word handed over (45_report.md R200). -/
section
namespace Sys2Proof.Machine

/-- Settles O24: a ready HOST in REPORT selects REPORT, the register invariant leaves only the status words of R95
there, and the word held is the one recorded. -/
theorem reportHandsOverTheStatus : Obligations.ReportHandsOverTheStatus := by
  unfold Obligations.ReportHandsOverTheStatus
  refine ⟨fun s hr hp hv => ?_, fun s hs => hs.reportable, fun s word hword => ?_⟩
  · rw [step_report hr hp, if_pos hv]
    rfl
  · obtain ⟨hcode, hparam, holen⟩ := statusOf_fields hword
    exact ⟨hcode, hparam, holen, execReport_some hword⟩

end Sys2Proof.Machine
end

/-! The complete next-phase function (46_sequencing.md R210). -/
section
namespace Sys2Proof.Machine

/-! ### Where each operation goes -/

/-- ACCEPT starts at position 0 and slot 4 on every path, and its three tests in order choose the phase (R160). -/
theorem execAccept_next (cmdLen : Nat) (s : State) :
    ∃ t, execAccept cmdLen s = .next t ∧ t.pos.toNat = 0 ∧ t.slot = 4 ∧
      t.phase = if cmdLen % 2 ^ s.lenW > Config.lenLimit s.lenW then .report
        else if cmdLen % 2 ^ s.lenW % 4 ≠ 0 then .report
        else if cmdLen % 2 ^ s.lenW = 0 then .report else .assemble := by
  rw [← BitVec.toNat_ofNat]
  split_ifs with hlong h4 h0
  · exact ⟨_, execAccept_tooLong hlong, BitVec.toNat_zero, rfl, rfl⟩
  · exact ⟨_, execAccept_invalidLength (Nat.le_of_not_lt hlong) h4, BitVec.toNat_zero, rfl, rfl⟩
  · exact ⟨_, execAccept_empty h0, BitVec.toNat_zero, rfl, rfl⟩
  · exact ⟨_, execAccept_start (Nat.le_of_not_lt hlong) (not_not.1 h4) h0, BitVec.toNat_zero, rfl, rfl⟩

/-- SHIFTIN leaves the phase exactly on the byte that completes its group (R170). -/
theorem execShiftin_next (b : Byte) {s : State} (hp : s.phase = .assemble) :
    ∃ t, execShiftin b s = .next t ∧ t.pos.toNat = (s.pos + 1#s.lenW).toNat ∧
      if (s.pos + 1#s.lenW).toNat % 4 = 0 then t.phase = .convert ∧ t.slot = 4
      else t.phase = .assemble ∧ t.slot = s.slot := by
  split_ifs with h4
  · exact ⟨_, execShiftin_last h4, rfl, rfl, rfl⟩
  · exact ⟨_, execShiftin_inside h4, rfl, hp, rfl⟩

/-- DIVSTEP leaves the phase exactly from slot 0 (R180). -/
theorem execDivstep_next {s : State} (hp : s.phase = .convert) :
    ∃ t, execDivstep s = .next t ∧ t.pos.toNat = s.pos.toNat ∧
      if s.slot.val = 0 then t.phase = .emit ∧ t.slot = s.slot
      else t.phase = .convert ∧ t.slot.val + 1 = s.slot.val := by
  split_ifs with h0
  · exact ⟨_, execDivstep_last h0, rfl, rfl, rfl⟩
  · exact ⟨_, execDivstep_inside h0, rfl, hp, Nat.sub_one_add_one h0⟩

/-- EMIT leaves the phase exactly from slot 4, to where the end-of-source test says (R190, R191). -/
theorem execEmit_next {s : State} (hp : s.phase = .emit) :
    ∃ t, execEmit s = .next t ∧ t.pos.toNat = s.pos.toNat ∧
      if s.slot.val = 4 then t.slot = s.slot ∧ t.phase = (if s.pos = s.len then .report else .assemble)
      else t.phase = .emit ∧ t.slot.val = s.slot.val + 1 := by
  split_ifs with h4 hend
  · exact ⟨_, execEmit_last h4, rfl, rfl, if_pos hend⟩
  · exact ⟨_, execEmit_last h4, rfl, rfl, if_neg hend⟩
  · exact ⟨_, execEmit_inside h4, rfl, hp, rfl⟩

/-- Settles O29: RESET goes to IDLE from every phase; else the phase's pin decides between the phase's operation and
its WAIT, which keeps all three registers. -/
theorem nextPhaseFunction : Obligations.NextPhaseFunction := by
  unfold Obligations.NextPhaseFunction
  intro s hreportable
  cases hr : s.line.rst with
  | true => exact ⟨_, step_reset_eq hr, rfl, rfl, BitVec.toNat_zero⟩
  | false =>
    simp only [Bool.false_eq_true, if_false]
    cases hp : s.phase with
    | idle =>
      rw [step_idle hr hp]
      split
      · have hmod : execAccept (s.line.cmdLen % 2 ^ s.lenW) s.advance = execAccept s.line.cmdLen s.advance :=
          execAccept_mod s.line.cmdLen s.advance
        rw [hmod]
        exact execAccept_next s.line.cmdLen s.advance
      · exact ⟨_, rfl, hp, rfl, rfl⟩
    | assemble =>
      rw [step_assemble hr hp]
      split
      · exact execShiftin_next s.line.inData (s := s.advance) hp
      · exact ⟨_, rfl, hp, rfl, rfl⟩
    | convert =>
      rw [step_convert hr hp]
      exact execDivstep_next (s := s.advance) hp
    | emit =>
      rw [step_emit hr hp]
      split
      · exact execEmit_next (s := s.advance) hp
      · exact ⟨_, rfl, rfl, hp, rfl⟩
    | report =>
      obtain ⟨word, hword⟩ := Option.ne_none_iff_exists'.1 (hreportable hp)
      rw [step_report hr hp]
      split
      · exact ⟨_, execReport_some (s.advance_status?.trans hword), rfl, rfl, rfl⟩
      · exact ⟨_, rfl, rfl, rfl, hp⟩

end Sys2Proof.Machine
end

/-! What a call has sent so far, in any phase, and a RESET inside it (46_sequencing.md R224). -/
section
namespace Sys2Proof.Machine

/-- The first `g` groups of a source give the first `5g` characters of its encoding. -/
theorem encGroups_take : ∀ (source : List Byte) (g : Nat),
    encGroups (source.take (4 * g)) = (encGroups source).take (5 * g)
  | _, 0 => by simp [encGroups]
  | [], _ + 1 | [_], _ + 1 | [_, _], _ + 1 | [_, _, _], _ + 1 => by simp [encGroups, Nat.mul_add]
  | b0 :: b1 :: b2 :: b3 :: rest, g + 1 => by
    have hrest := encGroups_take rest g
    have hlength : 5 * (g + 1) = (encGroup b0 b1 b2 b3).length + 5 * g := by rw [encGroup_length]; omega
    rw [encGroups, hlength, List.take_length_add_append, ← hrest]
    rfl

/-- Whole groups are transfers of bytes and characters only. -/
theorem groupEvents_endsCall {e : Event} : ∀ source : List Byte, e ∈ groupEvents source → e.endsCall = false
  | [], h | [_], h | [_, _], h | [_, _, _], h => by simp [groupEvents] at h
  | b0 :: b1 :: b2 :: b3 :: rest, h => by
    simp only [groupEvents, List.mem_append, List.mem_map] at h
    obtain (hbyte | ⟨c, -, rfl⟩) | hlater := h
    · have hbytes : ∀ e' ∈ [Event.byte b0, .byte b1, .byte b2, .byte b3], e'.endsCall = false := by
        simp [Event.endsCall]
      exact hbytes e hbyte
    · rfl
    · exact groupEvents_endsCall rest hlater

theorem State.expectedTail_endsCall {s : State} {e : Event} (h : e ∈ s.expectedTail) : e.endsCall = false := by
  simp only [State.expectedTail, List.mem_append, List.mem_map] at h
  obtain (hwhole | ⟨b, -, rfl⟩) | hchars := h
  · exact groupEvents_endsCall _ hwhole
  · rfl
  · split at hchars
    · obtain ⟨c, -, rfl⟩ := List.mem_map.1 hchars
      rfl
    · cases hchars

/-- How many characters the call has sent, by phase (R224). -/
def State.sentChars (s : State) : Nat :=
  match s.phase with
  | .idle => 0
  | .assemble => 5 * (s.pos.toNat / 4)
  | .convert => 5 * (s.pos.toNat / 4 - 1)
  | .emit => 5 * (s.pos.toNat / 4 - 1) + s.slot.val
  | .report => 5 * (s.pos.toNat / 4)

/-- Outside IDLE and ASSEMBLE only whole groups have been taken (R216). -/
theorem RegInv.pos_aligned {s : State} (h : RegInv s) (hi : s.phase ≠ .idle) (ha : s.phase ≠ .assemble) :
    s.pos.toNat % 4 = 0 := by
  cases hp : s.phase with
  | idle => exact absurd hp hi
  | assemble => exact absurd hp ha
  | convert =>
    obtain ⟨h4, -⟩ := h.wholeGroups (.inl hp)
    exact h4
  | emit =>
    obtain ⟨h4, -⟩ := h.wholeGroups (.inr hp)
    exact h4
  | report =>
    by_cases herr : s.err = .ok
    · obtain ⟨hend, h4, -⟩ := h.success hp herr
      rw [hend, h4]
    · obtain ⟨hpos, -⟩ := h.failure hp herr
      rw [hpos]

section
variable {s : State} (h : CallInv s)
include h

/-- Outside EMIT the call has sent the characters of the groups before the one in hand, and no more. -/
theorem CallInv.callChars_eq_encGroups (hi : s.phase ≠ .idle) (he : s.phase ≠ .emit) :
    callChars s.events = encGroups ((callBytes s.events).take s.groupStart) := by
  rw [callChars, h.history hi, State.expectedTail, if_neg he, List.append_nil, charsOf_append,
    charsOf_groupEvents, charsOf_map_byte, List.append_nil]

/-- With `g` groups before the one in hand, none of its characters sent yet, the characters sent are the first
`5g` of the encoding of the groups taken. -/
theorem CallInv.callChars_eq_take_groups (hi : s.phase ≠ .idle) (he : s.phase ≠ .emit) {g : Nat}
    (hstart : s.groupStart = 4 * g) (hg : g ≤ s.pos.toNat / 4) :
    callChars s.events = (encGroups ((callBytes s.events).take (4 * (s.pos.toNat / 4)))).take (5 * g) := by
  rw [h.callChars_eq_encGroups hi he, hstart, ← encGroups_take, List.take_take, Nat.min_eq_left (by omega)]

/-- In EMIT the finished groups and the one in hand are all the bytes taken, and the characters sent stand first in
their encoding. -/
theorem CallInv.emit_callChars_eq_take (hp : s.phase = .emit) :
    callChars s.events = (encGroups (callBytes s.events)).take (5 * (s.pos.toNat / 4 - 1) + s.slot.val) := by
  obtain ⟨hbefore, -⟩ := h.emit_bytes_length hp
  obtain ⟨h4, -⟩ := h.wholeGroups (.inr hp)
  have hsource : (callBytes s.events).take s.groupStart ++ s.groupBytes = callBytes s.events :=
    List.take_append_drop _ _
  have hsent : (encGroups ((callBytes s.events).take s.groupStart)).length = 5 * (s.pos.toNat / 4 - 1) := by
    rw [encGroups_length _ (by omega), hbefore]
    omega
  rw [h.emit_callChars hp, ← hsent, ← List.take_length_add_append, ← encGroups_append _ _ (by omega), hsource]

/-- What the call has sent is as much of the encoding of the groups taken as the phase gives (R224). -/
theorem CallInv.callChars_eq_take (hi : s.phase ≠ .idle) :
    callChars s.events = (encGroups ((callBytes s.events).take (4 * (s.pos.toNat / 4)))).take s.sentChars := by
  cases hp : s.phase with
  | idle => exact absurd hp hi
  | assemble =>
    simp only [State.sentChars, hp]
    exact h.callChars_eq_take_groups hi (by simp [hp]) (by simp [State.groupStart, hp]) (Nat.le_refl _)
  | convert =>
    obtain ⟨h4, hpos⟩ := h.wholeGroups (.inl hp)
    have hstart : s.groupStart = 4 * (s.pos.toNat / 4 - 1) := by
      simp only [State.groupStart, hp]
      omega
    simp only [State.sentChars, hp]
    exact h.callChars_eq_take_groups hi (by simp [hp]) hstart (Nat.sub_le _ _)
  | emit =>
    have hcount : (callBytes s.events).length = s.pos.toNat := h.count hi
    have h4 : s.pos.toNat % 4 = 0 := h.pos_aligned hi (by simp [hp])
    have hall : (callBytes s.events).take (4 * (s.pos.toNat / 4)) = callBytes s.events :=
      List.take_of_length_le (by omega)
    simp only [State.sentChars, hp, hall]
    exact h.emit_callChars_eq_take hp
  | report =>
    have h4 : s.pos.toNat % 4 = 0 := h.pos_aligned hi (by simp [hp])
    have hstart : s.groupStart = 4 * (s.pos.toNat / 4) := by
      simp only [State.groupStart, hp]
      omega
    simp only [State.sentChars, hp]
    exact h.callChars_eq_take_groups hi (by simp [hp]) hstart (Nat.le_refl _)

/-- The groups taken have all the characters that the phase says are sent. -/
theorem CallInv.sentChars_le : s.sentChars ≤ 5 * (s.pos.toNat / 4) := by
  cases hp : s.phase with
  | idle | assemble | convert | report =>
    simp only [State.sentChars, hp]
    omega
  | emit =>
    obtain ⟨-, hpos⟩ := h.wholeGroups (.inr hp)
    simp only [State.sentChars, hp]
    omega

theorem CallInv.callChars_length (hi : s.phase ≠ .idle) : (callChars s.events).length = s.sentChars := by
  have hcount : (callBytes s.events).length = s.pos.toNat := h.count hi
  have htaken : ((callBytes s.events).take (4 * (s.pos.toNat / 4))).length = 4 * (s.pos.toNat / 4) :=
    List.length_take_of_le (by omega)
  have hchars : (encGroups ((callBytes s.events).take (4 * (s.pos.toNat / 4)))).length = 5 * (s.pos.toNat / 4) := by
    rw [encGroups_length _ (by omega), htaken]
    omega
  have hsent : s.sentChars ≤ 5 * (s.pos.toNat / 4) := h.sentChars_le
  rw [h.callChars_eq_take hi]
  exact List.length_take_of_le (by omega)

end

theorem callOpen_snoc_reset (events : List Event) : callOpen (events ++ [.reset]) = false := by
  simp [callOpen]

/-- Settles O46: the step is RESET's, the call's events are those the invariant expects, and they fix the characters
sent. -/
theorem resetInsideACallLeavesAPrefix : Obligations.ResetInsideACallLeavesAPrefix := by
  unfold Obligations.ResetInsideACallLeavesAPrefix
  intro s h hi hr j sent
  have htail : ∀ e ∈ callTail s.events, e.endsCall = false := by
    rw [h.history hi]
    exact fun e => State.expectedTail_endsCall
  exact ⟨⟨_, step_reset_eq hr, rfl, rfl, rfl, callOpen_snoc_reset s.events⟩, htail, h.callChars_eq_take hi,
    h.callChars_length hi⟩

end Sys2Proof.Machine
end

/-! The two failure kinds: raised by ACCEPT alone, when, and what they record (60_exceptions.md R230 to R232). -/
section
namespace Sys2Proof.Machine

/-! ### What ACCEPT leaves in `err`, and what a failing ACCEPT writes -/

/-- `err` holds the outcome of the length checks on every path of ACCEPT (R160). -/
theorem execAccept_err {cmdLen : Nat} {s t : State} (h : execAccept cmdLen s = .next t) :
    t.err = lengthCheck (BitVec.ofNat s.lenW cmdLen) := by
  obtain ⟨k, hk, -, rfl⟩ | ⟨hok, -, rfl⟩ | ⟨hok, -, rfl⟩ := execAccept_cases h
  · exact hk.symm
  · exact hok.symm
  · exact hok.symm

/-- ACCEPT latches the number on its LEN_W pins (R160, R274), on the failing paths as well. -/
theorem execAccept_len {cmdLen : Nat} {s t : State} (h : execAccept cmdLen s = .next t) :
    t.len.toNat = cmdLen % 2 ^ s.lenW := by
  rw [← BitVec.toNat_ofNat]
  obtain ⟨k, -, -, rfl⟩ | ⟨-, -, rfl⟩ | ⟨-, -, rfl⟩ := execAccept_cases h <;> rfl

/-- On every path ACCEPT has no effect outside the registers but its `Cmd`, and it leaves the character buffer alone
(R160, R230). -/
theorem execAccept_frame {cmdLen : Nat} {s t : State} (h : execAccept cmdLen s = .next t) :
    t.obuf = s.obuf ∧ t.events = s.events ++ [.cmd t.len.toNat] := by
  obtain ⟨k, -, -, rfl⟩ | ⟨-, -, rfl⟩ | ⟨-, -, rfl⟩ := execAccept_cases h <;> exact ⟨rfl, rfl⟩

/-- A failure in `err` after ACCEPT was raised by it: `raise k(param)` of R233. -/
theorem execAccept_raised {cmdLen : Nat} {s t : State} (h : execAccept cmdLen s = .next t) (hne : t.err ≠ .ok) :
    t.phase = .report ∧ t.errparam = t.err.param ∧ t.olen.toNat = 0 := by
  obtain ⟨k, -, -, rfl⟩ | ⟨-, -, rfl⟩ | ⟨-, -, rfl⟩ := execAccept_cases h
  · exact ⟨rfl, rfl, BitVec.toNat_zero⟩
  · exact absurd rfl hne
  · exact absurd rfl hne

/-- What a failing ACCEPT leaves in the registers and on the status pins, for either kind (R231, R232). -/
theorem execAccept_raised_status {cmdLen : Nat} {s t : State} {k : ErrKind} (h : execAccept cmdLen s = .next t)
    (hk : t.err = k) (hne : k ≠ .ok) :
    t.phase = .report ∧ t.errparam = k.param ∧ t.olen.toNat = 0 ∧ t.len.toNat = cmdLen % 2 ^ s.lenW ∧
      t.outputs.stCode = some k.code ∧ t.outputs.stParam = some k.param.code ∧ t.outputs.stOlen = some 0 := by
  subst hk
  obtain ⟨hphase, hparam, holen⟩ := execAccept_raised h hne
  refine ⟨hphase, hparam, holen, execAccept_len h, ?_, ?_, ?_⟩
  · simp [hphase]
  · simp [hphase, hparam]
  · simp [hphase, holen]

/-- Settles O13: `err` is the outcome of the checks, and TooLong is the first check's. -/
theorem tooLongWhenTheLengthExceedsTheLimit : Obligations.TooLongWhenTheLengthExceedsTheLimit := by
  unfold Obligations.TooLongWhenTheLengthExceedsTheLimit
  intro s cmdLen
  obtain ⟨t, ht, -⟩ := execAccept_records cmdLen s
  refine ⟨t, ht, ?_, fun hk => execAccept_raised_status ht hk (by decide)⟩
  rw [execAccept_err ht, lengthCheck_eq_tooLong, BitVec.toNat_ofNat]

/-- Settles O14: `err` is the outcome of the checks, and InvalidLength is the second check's. -/
theorem invalidLengthWhenNotAMultipleOfFour : Obligations.InvalidLengthWhenNotAMultipleOfFour := by
  unfold Obligations.InvalidLengthWhenNotAMultipleOfFour
  intro s cmdLen
  obtain ⟨t, ht, -⟩ := execAccept_records cmdLen s
  refine ⟨t, ht, ?_, fun hk => execAccept_raised_status ht hk (by decide)⟩
  rw [execAccept_err ht, lengthCheck_eq_invalidLength, BitVec.toNat_ofNat]

/-! ### No other operation raises a failure -/

/-- Of the ten operations only ACCEPT puts a failure into `err`: RESET clears it, the others keep it (R27, R230). -/
theorem exec_err {i : Instr} {s t : State} (h : exec i s = .next t) :
    (∃ cmdLen, i = .accept cmdLen) ∨ t.err = s.err ∨ t.err = .ok := by
  cases i with
  | reset => cases h; exact .inr (.inr rfl)
  | accept cmdLen => exact .inl ⟨cmdLen, rfl⟩
  | waitCmd | waitByte | waitSink | waitAck => cases h; exact .inr (.inl rfl)
  | shiftin b => cases (execShiftin_eq b s).symm.trans h; exact .inr (.inl rfl)
  | divstep => cases (execDivstep_eq s).symm.trans h; exact .inr (.inl rfl)
  | emit => cases (execEmit_eq s).symm.trans h; exact .inr (.inl rfl)
  | report =>
    obtain ⟨word, -, rfl⟩ := execReport_cases h
    exact .inr (.inl rfl)

/-- Settles O15: every other operation keeps or clears `err`, so a new failure is one that ACCEPT raised. -/
theorem onlyAcceptRaisesAFailure : Obligations.OnlyAcceptRaisesAFailure := by
  unfold Obligations.OnlyAcceptRaisesAFailure
  intro i s t h hnew hfail
  obtain ⟨cmdLen, rfl⟩ | hkept | hok := exec_err h
  · have hkind : t.err = .tooLong ∨ t.err = .invalidLength := by
      cases hk : t.err with
      | ok => exact absurd hk hfail
      | tooLong => exact .inl rfl
      | invalidLength => exact .inr rfl
    obtain ⟨hphase, -, -⟩ := execAccept_raised h hfail
    exact ⟨⟨cmdLen, rfl⟩, hkind, hphase, execAccept_frame h⟩
  · exact absurd hkept hnew
  · exact absurd hok hfail

end Sys2Proof.Machine
end

/-! The selector map, its encoder and the step (30_encoding.md R100 to R104). -/
section
namespace Sys2Proof.Machine

/-- Settles O4: one lemma of the family EncodeRoundTrip per operation. -/
theorem decodeOfEncodeIsTheOperation : Obligations.DecodeOfEncodeIsTheOperation := by
  unfold Obligations.DecodeOfEncodeIsTheOperation
  intro w i hwf
  cases i with
  | reset => exact Laws.EncodeRoundTrip.reset w hwf
  | accept cmdLen => exact Laws.EncodeRoundTrip.accept cmdLen w hwf
  | waitCmd => exact Laws.EncodeRoundTrip.waitCmd w hwf
  | shiftin inData => exact Laws.EncodeRoundTrip.shiftin inData w hwf
  | waitByte => exact Laws.EncodeRoundTrip.waitByte w hwf
  | divstep => exact Laws.EncodeRoundTrip.divstep w hwf
  | emit => exact Laws.EncodeRoundTrip.emit w hwf
  | waitSink => exact Laws.EncodeRoundTrip.waitSink w hwf
  | report => exact Laws.EncodeRoundTrip.report w hwf
  | waitAck => exact Laws.EncodeRoundTrip.waitAck w hwf

theorem encode_sel (w : Nat) (i : Instr) : (encode w i).sel = matchOf i := by
  cases i <;> rfl

/-- What a word decodes to is one of its rows, and that row selects. -/
theorem decode_eq_instr {w : Nat} {x : InWord w} {i : Instr} (h : decode x = .instr i) :
    i ∈ tableRows x ∧ x.sel &&& maskOf i = matchOf i := by
  have hmem : i ∈ tableRows x := by
    unfold decode at h
    split at h
    · rename_i j hfind
      cases h
      exact List.mem_of_find?_eq_some hfind
    · cases h
  exact ⟨hmem, (decode_eq_row_iff hmem).1 h⟩

/-- A row can be presented, and its operand is the one on the row's data pin. -/
theorem tableRows_operand {w : Nat} {x : InWord w} {i : Instr} (h : i ∈ tableRows x) :
    i.wf w = true ∧ (∀ cmdLen, i = .accept cmdLen → (encode w i).cmdLen = x.cmdLen) ∧
      ∀ inData, i = .shiftin inData → (encode w i).inData = x.inData := by
  simp only [tableRows, List.mem_cons, List.not_mem_nil, or_false] at h
  rcases h with rfl | rfl | rfl | rfl | rfl | rfl | rfl | rfl | rfl | rfl <;>
    simp [Instr.wf, encode, BitVec.isLt]

/-- Settles O5: a word decodes to a row that selects, and the encoder writes the row's match and operand. -/
theorem encodeOfDecodeAgreesOnTheMask : Obligations.EncodeOfDecodeAgreesOnTheMask := by
  unfold Obligations.EncodeOfDecodeAgreesOnTheMask
  intro w x i h
  obtain ⟨hmem, hsel⟩ := decode_eq_instr h
  obtain ⟨hwf, hdata⟩ := tableRows_operand hmem
  exact ⟨hwf, hsel.trans (encode_sel w i).symm, hdata⟩

/-! ### How many rows a selector word matches -/

/-- The mask and match columns of R100, row by row. -/
def selectorRows : List (BitVec 8 × BitVec 8) :=
  [(0x80, 0x80), (0xF8, 0x08), (0xF8, 0x00), (0xF4, 0x14), (0xF4, 0x10), (0xF0, 0x20), (0xF2, 0x32), (0xF2, 0x30),
    (0xF1, 0x41), (0xF1, 0x40)]

theorem tableRows_map_columns {w : Nat} (x : InWord w) :
    (tableRows x).map (fun i => (maskOf i, matchOf i)) = selectorRows := rfl

/-- How many rows match does not depend on the data pins. -/
theorem tableRows_filter_length {w : Nat} (x : InWord w) :
    ((tableRows x).filter (selects x.sel)).length =
      selectorRows.countP fun row => x.sel &&& row.1 == row.2 := by
  rw [← tableRows_map_columns x, List.countP_map, List.countP_eq_length_filter]
  rfl

/-- The selector values by their two hexadecimal digits: the columns are literals (R101). -/
theorem selectorRows_countP_hex : ∀ high low : Fin 16,
    selectorRows.countP (fun row => BitVec.ofNat 8 (16 * high + low) &&& row.1 == row.2) =
      if 0x50 ≤ 16 * high.val + low.val ∧ 16 * high.val + low.val ≤ 0x7F then 0 else 1 := by
  decide

theorem selectorRows_countP (sel : BitVec 8) : selectorRows.countP (fun row => sel &&& row.1 == row.2) =
    if 0x50 ≤ sel.toNat ∧ sel.toNat ≤ 0x7F then 0 else 1 := by
  have hlt := sel.isLt
  have hhex := selectorRows_countP_hex ⟨sel.toNat / 16, by omega⟩ ⟨sel.toNat % 16, by omega⟩
  simpa only [Nat.div_add_mod, BitVec.ofNat_toNat, BitVec.setWidth_eq] using hhex
/-- Counting over the numbers below `m * n` by quotient and remainder. -/
theorem countP_range_mul (f : Nat → Bool) (m n : Nat) : (List.range (m * n)).countP f =
    ((List.range n).map fun high => (List.range m).countP fun low => f (m * high + low)).sum := by
  induction n with
  | zero => rfl
  | succ n ih =>
    rw [Nat.mul_succ, List.range_add, List.countP_append, ih, List.countP_map, List.range_succ, List.map_append,
      List.sum_append, List.map_singleton, List.sum_singleton]
    rfl

/-- A selector word that matches no row is rejected with its phase code (R104). -/
theorem decode_eq_reservedPhase {w : Nat} {x : InWord w}
    (h : ((tableRows x).filter (selects x.sel)).length = 0) :
    decode x = .reservedPhase (x.sel.extractLsb' 4 3) := by
  have hnone : (tableRows x).find? (selects x.sel) = none :=
    List.find?_eq_none.2 (List.filter_eq_nil_iff.1 (List.length_eq_zero_iff.1 h))
  simp [decode, hnone]

/-- Settles O3: the map depends on the two columns of literals alone, and they are counted over the 256 values. -/
theorem selectorMapIsTotalAndUnambiguous : Obligations.SelectorMapIsTotalAndUnambiguous := by
  unfold Obligations.SelectorMapIsTotalAndUnambiguous
  have hcount (w : Nat) (x : InWord w) := (tableRows_filter_length x).trans (selectorRows_countP x.sel)
  refine ⟨hcount, fun w x hlow hhigh => ?_, fun i => ?_⟩
  · exact decode_eq_reservedPhase ((hcount w x).trans (if_pos ⟨hlow, hhigh⟩))
  · rw [← List.countP_eq_length_filter, show 256 = 16 * 16 from rfl, countP_range_mul]
    cases i <;> simp only [selects, maskOf, matchOf, reduceCtorEq, if_true, if_false] <;> decide

/-- Settles O6: the twelve words, each decoded. -/
theorem selectorWordsOfEachRowDecode : Obligations.SelectorWordsOfEachRowDecode := by
  unfold Obligations.SelectorWordsOfEachRowDecode
  decide

/-- Settles O1: `step` is the dispatch on the decoded word, and the line comes from `trace` while that holds one. -/
theorem stepPerformsSelectedOperation : Obligations.StepPerformsSelectedOperation := by
  unfold Obligations.StepPerformsSelectedOperation
  refine ⟨fun s i h => ?_, fun s p ps ht => ?_, fun s ht => ?_⟩
  · rw [step, h]
  · exact ⟨by rw [State.inWord, State.line_cons ht], State.advance_cons ht⟩
  · exact ⟨by rw [State.inWord, State.line_nil ht], by simp [State.advance, ht]⟩

end Sys2Proof.Machine
end

/-! What each operation writes and records, and that a step is always possible (10_state.md R30, R44, 46_sequencing.md
R213). -/
section
namespace Sys2Proof.Machine

/-! ### The events of an operation -/

/-- The event an operation records, performed in state `s` (R44). -/
def State.recorded (s : State) : Instr → List Event
  | .reset => [.reset]
  | .accept cmdLen => [.cmd (cmdLen % 2 ^ s.lenW)]
  | .shiftin inData => [.byte inData]
  | .emit => [.char s.obuf[s.slot]]
  | .report => s.status?.toList.map .status
  | .waitCmd | .waitByte | .divstep | .waitSink | .waitAck => []

/-- An operation that answers adds its event to the history, and nothing else. -/
theorem exec_events {i : Instr} {s t : State} (h : exec i s = .next t) : t.events = s.events ++ s.recorded i := by
  cases i with
  | reset => cases h; rfl
  | accept cmdLen =>
    obtain ⟨-, hevents⟩ := execAccept_frame h
    rw [hevents, execAccept_len h]
    rfl
  | waitCmd | waitByte | waitSink | waitAck => cases h; exact (List.append_nil _).symm
  | shiftin b => cases (execShiftin_eq b s).symm.trans h; rfl
  | divstep => cases (execDivstep_eq s).symm.trans h; exact (List.append_nil _).symm
  | emit => cases (execEmit_eq s).symm.trans h; rfl
  | report =>
    obtain ⟨word, hword, rfl⟩ := execReport_cases h
    simp [State.recorded, hword]

/-- A step adds the event of the operation its line selects. -/
theorem step_events {s t : State} (h : step s = .next t) :
    t.events = s.events ++ s.recorded (selectedOp s.lenW s.phase s.line) := by
  rw [step_eq] at h
  rw [exec_events h]
  cases selectedOp s.lenW s.phase s.line <;> rfl

theorem State.recorded_cases (s : State) (i : Instr) : s.recorded i = [] ∨ ∃ e, s.recorded i = [e] := by
  cases i with
  | waitCmd | waitByte | divstep | waitSink | waitAck => exact .inl rfl
  | reset | accept | shiftin | emit => exact .inr ⟨_, rfl⟩
  | report => cases h : s.status? <;> simp [State.recorded, h]

/-- Only EMIT records a character, the one it offers. -/
theorem State.recorded_eq_char {s : State} {i : Instr} {c : Byte} (h : s.recorded i = [.char c]) :
    i = .emit ∧ c = s.obuf[s.slot] := by
  cases i with
  | emit => simpa [State.recorded, eq_comm] using h
  | report => cases hword : s.status? <;> simp [State.recorded, hword] at h
  | _ => simp [State.recorded] at h

/-- Only REPORT records a status, the word in the registers. -/
theorem State.recorded_eq_status {s : State} {i : Instr} {word : Status} (h : s.recorded i = [.status word]) :
    i = .report ∧ s.status? = some word := by
  cases i with
  | report => cases hword : s.status? <;> simp_all [State.recorded]
  | _ => simp [State.recorded] at h

/-! ### The phase an operation is selected in -/

theorem selectedOp_eq_emit {w : Nat} {ph : Phase} {p : Pins} (h : selectedOp w ph p = .emit) : ph = .emit := by
  cases ph with
  | emit => rfl
  | _ => simp [selectedOp, ite_eq_iff] at h

theorem selectedOp_eq_report {w : Nat} {ph : Phase} {p : Pins} (h : selectedOp w ph p = .report) :
    ph = .report := by
  cases ph with
  | report => rfl
  | _ => simp [selectedOp, ite_eq_iff] at h

/-! ### The frame of every operation -/

/-- Settles O30: the write column of each operation, read off its one record. -/
theorem eachOperationWritesOnlyItsRegisters : Obligations.EachOperationWritesOnlyItsRegisters := by
  unfold Obligations.EachOperationWritesOnlyItsRegisters
  intro i s t h
  cases i with
  | reset => cases h; simp
  | accept cmdLen =>
    obtain ⟨hobuf, hevents⟩ := execAccept_frame h
    have hinput : t.lenW = s.lenW ∧ t.trace = s.trace ∧ t.drawn = s.drawn := by
      obtain ⟨k, -, -, rfl⟩ | ⟨-, -, rfl⟩ | ⟨-, -, rfl⟩ := execAccept_cases h <;> exact ⟨rfl, rfl, rfl⟩
    simp [hinput, hobuf, hevents]
  | waitCmd | waitByte | waitSink | waitAck => cases h; simp
  | shiftin b => cases (execShiftin_eq b s).symm.trans h; simp
  | divstep =>
    cases (execDivstep_eq s).symm.trans h
    have hother : ∀ k : Fin 5, k ≠ s.slot → (s.obuf.set s.slot (alpha (digitOf s.acc)))[k] = s.obuf[k] :=
      fun k hk => (obuf_set_get _ _ _ _).trans (if_neg hk)
    exact ⟨rfl, rfl, rfl, by simp, by simp, by simp, by simp, .inr (.inl ⟨rfl, hother⟩), by simp, by simp⟩
  | emit => cases (execEmit_eq s).symm.trans h; simp
  | report =>
    obtain ⟨word, -, rfl⟩ := execReport_cases h
    simp

/-- Settles O31: the frame of the operation the step performs, and at most one event recorded. -/
theorem stepExtendsTheHistoryByAtMostOneEvent : Obligations.StepExtendsTheHistoryByAtMostOneEvent := by
  unfold Obligations.StepExtendsTheHistoryByAtMostOneEvent
  intro s t h
  have hevents := step_events h
  rw [step_eq] at h
  obtain ⟨hlenW, htrace, -⟩ := eachOperationWritesOnlyItsRegisters _ _ _ h
  refine ⟨hlenW, htrace, ?_⟩
  obtain hnone | ⟨e, hone⟩ := s.recorded_cases (selectedOp s.lenW s.phase s.line)
  · exact .inl (by rw [hevents, hnone, List.append_nil])
  · exact .inr ⟨e, by rw [hevents, hone]⟩

/-! ### Every operation but REPORT answers -/

theorem exec_answers {i : Instr} {s : State} (h : i ≠ .report ∨ s.status? ≠ none) : ∃ t, exec i s = .next t := by
  cases i with
  | reset | waitCmd | waitByte | waitSink | waitAck => exact ⟨_, rfl⟩
  | accept cmdLen =>
    obtain ⟨t, ht, -⟩ := execAccept_records cmdLen s
    exact ⟨t, ht⟩
  | shiftin b => exact ⟨_, execShiftin_eq b s⟩
  | divstep => exact ⟨_, execDivstep_eq s⟩
  | emit => exact ⟨_, execEmit_eq s⟩
  | report =>
    obtain ⟨word, hword⟩ := Option.ne_none_iff_exists'.1 (h.resolve_left (by simp))
    exact ⟨_, execReport_some hword⟩

/-- REPORT is selected in its phase alone, and there the registers hold a status word. -/
theorem State.reportable.step_answers {s : State} (h : s.reportable) : ∃ t, step s = .next t := by
  rw [step_eq]
  by_cases hop : selectedOp s.lenW s.phase s.line = .report
  · exact exec_answers (.inr (h (selectedOp_eq_report hop)))
  · exact exec_answers (.inl hop)

/-- Settles O7: the selected operation is the one the word decodes to, and it answers. -/
theorem everyStepAnswersANextState : Obligations.EveryStepAnswersANextState := by
  unfold Obligations.EveryStepAnswersANextState
  refine ⟨fun s => ?_, fun i s => exec_answers, fun s => RegInv.reportable⟩
  have hdecode : decode s.inWord = .instr (selectedOp s.lenW s.phase s.line) := decode_sampleWord _ _ _
  refine ⟨_, hdecode, fun j hj => ?_, fun h => h.reportable.step_answers⟩
  exact (DecodeResult.instr.inj (hdecode.symm.trans hj)).symm

/-! ### The status words -/

theorem statusOf_ne_none_iff {w : Nat} {err : ErrKind} {errparam : ErrParam} {olen : BitVec w} :
    statusOf err errparam olen ≠ none ↔
      (err = .ok ∧ errparam = .zero ∧ isResultLength w olen.toNat = true) ∨
      (err = .tooLong ∧ errparam = .zero ∧ olen.toNat = 0) ∨
      (err = .invalidLength ∧ errparam = .four ∧ olen.toNat = 0) := by
  constructor
  · intro h
    obtain ⟨word, hword⟩ := Option.ne_none_iff_exists'.1 h
    obtain ⟨herr, hparam, holen, -⟩ | ⟨herr, hparam, holen, -⟩ | ⟨herr, hparam, holen, -⟩ := statusOf_cases hword
    · exact .inl ⟨herr, hparam, holen⟩
    · exact .inr (.inl ⟨herr, hparam, holen⟩)
    · exact .inr (.inr ⟨herr, hparam, holen⟩)
  · rintro (⟨rfl, rfl, holen⟩ | ⟨rfl, rfl, holen⟩ | ⟨rfl, rfl, holen⟩) <;> simp [statusOf, holen]

/-- The pin codes tell the failure kinds apart (R27, R95). -/
theorem ErrKind.code_eq (k : ErrKind) :
    (k.code = 0#2 ↔ k = .ok) ∧ (k.code = 1#2 ↔ k = .tooLong) ∧ (k.code = 2#2 ↔ k = .invalidLength) := by
  cases k <;> decide

theorem ErrParam.code_eq (param : ErrParam) :
    (param.code = 0#3 ↔ param = .zero) ∧ (param.code = 4#3 ↔ param = .four) := by
  cases param <;> decide

/-- A result length is 0 or that of a source that is not empty. -/
theorem isResultLength_iff_zero_or (w n : Nat) :
    isResultLength w n = true ↔ n = 0 ∨ ∃ l, 0 < l ∧ l ≤ Config.lenLimit w ∧ l % 4 = 0 ∧ n = l + l / 4 := by
  rw [isResultLength_iff]
  constructor
  · rintro ⟨l, hlimit, h4, rfl⟩
    rcases Nat.eq_zero_or_pos l with rfl | hpos
    · exact .inl rfl
    · exact .inr ⟨l, hpos, hlimit, h4, rfl⟩
  · rintro (rfl | ⟨l, -, hlimit, h4, rfl⟩)
    · exact ⟨0, Nat.zero_le _, rfl, rfl⟩
    · exact ⟨l, hlimit, h4, rfl⟩

/-- The registers hold a status word exactly when their three numbers are those of one of the four (R95). -/
theorem State.status?_ne_none_iff (s : State) : s.status? ≠ none ↔
    (s.err.code = 0#2 ∧ s.errparam.code = 0#3 ∧ s.olen.toNat = 0) ∨
    (s.err.code = 0#2 ∧ s.errparam.code = 0#3 ∧ ∃ l : Nat, 0 < l ∧ l ≤ Config.lenLimit s.lenW ∧ l % 4 = 0 ∧
      s.olen.toNat = l + l / 4) ∨
    (s.err.code = 1#2 ∧ s.errparam.code = 0#3 ∧ s.olen.toNat = 0) ∨
    (s.err.code = 2#2 ∧ s.errparam.code = 4#3 ∧ s.olen.toNat = 0) := by
  obtain ⟨hok, hlong, hinvalid⟩ := s.err.code_eq
  obtain ⟨hzero, hfour⟩ := s.errparam.code_eq
  rw [State.status?, statusOf_ne_none_iff, isResultLength_iff_zero_or, hok, hlong, hinvalid, hzero, hfour]
  simp only [and_or_left, or_assoc]

/-- The word of a result length is the empty one or that of a source that is not empty. -/
theorem Status.ofLength_cases {w n : Nat} (h : isResultLength w n = true) : Status.ofLength n = .empty ∨
    ∃ l, 0 < l ∧ l ≤ Config.lenLimit w ∧ l % 4 = 0 ∧ Status.ofLength n = .success (l + l / 4) := by
  obtain rfl | ⟨l, hpos, hlimit, h4, rfl⟩ := (isResultLength_iff_zero_or w n).1 h
  · exact .inl rfl
  · exact .inr ⟨l, hpos, hlimit, h4, if_neg (by omega)⟩

/-- Settles O58: `statusOf` answers on the four words' registers alone, REPORT goes by its answer, and no other
operation records a status. -/
theorem reportRefusesAnyOtherStatusWord : Obligations.ReportRefusesAnyOtherStatusWord := by
  unfold Obligations.ReportRefusesAnyOtherStatusWord
  refine ⟨State.status?_ne_none_iff, fun s => execReport_none, fun i s t word h hevents => ?_⟩
  have hrecorded : s.recorded i = [.status word] :=
    List.append_cancel_left ((exec_events h).symm.trans hevents)
  obtain ⟨hi, hword⟩ := State.recorded_eq_status hrecorded
  refine ⟨hi, ?_⟩
  obtain ⟨-, -, hlength, rfl⟩ | ⟨-, -, -, rfl⟩ | ⟨-, -, -, rfl⟩ := statusOf_cases hword
  · obtain hempty | ⟨l, hpos, hlimit, h4, hsuccess⟩ := Status.ofLength_cases hlength
    · exact .inl hempty
    · exact .inr (.inr (.inr ⟨l, hpos, hlimit, h4, hsuccess⟩))
  · exact .inr (.inl rfl)
  · exact .inr (.inr (.inl rfl))

end Sys2Proof.Machine
end

/-! RESET (70_reset_and_hazards.md R260 to R262), and the register invariant phase by phase (46_sequencing.md R215 to
R219). -/
section
namespace Sys2Proof.Machine

/-! ### The register invariant in each phase -/

theorem RegInv.of_idle {s : State} (hp : s.phase = .idle) (hwidth : 1 ≤ s.lenW) (hflags : s.errparam = s.err.param)
    (hacc : s.acc = 0#32) (hslot : s.slot = 4) : RegInv s := by
  constructor <;> simp [hp, hwidth, hflags, hacc, hslot]

theorem RegInv.of_report {s : State} (hp : s.phase = .report) (hwidth : 1 ≤ s.lenW)
    (hflags : s.errparam = s.err.param) (hacc : s.acc = 0#32) (hslot : s.slot = 4)
    (hsuccess : s.err = .ok → s.pos.toNat = s.len.toNat ∧ s.len.toNat % 4 = 0 ∧
      s.len.toNat ≤ Config.lenLimit s.lenW ∧ s.olen.toNat = s.len.toNat + s.len.toNat / 4)
    (hfailure : s.err ≠ .ok → s.pos.toNat = 0 ∧ s.olen.toNat = 0) : RegInv s where
  width := hwidth
  flags := hflags
  busy := by simp [hp]
  assembling := by simp [hp]
  wholeGroups := by simp [hp]
  success _ := hsuccess
  failure _ := hfailure
  accClear _ := hacc
  accPartial := by simp [hp]
  accRunning := by simp [hp]
  slotHome _ := hslot
  placed := by simp [hp]
  filled := by simp [hp]

/-- What R216 says of the three phases of the pipeline together. -/
structure State.Busy (s : State) : Prop where
  width : 1 ≤ s.lenW
  flags : s.errparam = s.err.param
  err : s.err = .ok
  len_pos : 0 < s.len.toNat
  len_aligned : s.len.toNat % 4 = 0
  len_le : s.len.toNat ≤ Config.lenLimit s.lenW
  olen : s.olen.toNat = s.len.toNat + s.len.toNat / 4
  pos_le : s.pos.toNat ≤ s.len.toNat

theorem RegInv.toBusy {s : State} (h : RegInv s) (hp : s.phase = .assemble ∨ s.phase = .convert ∨ s.phase = .emit) :
    s.Busy := by
  obtain ⟨herr, hpos, h4, hle, holen, hposle⟩ := h.busy hp
  exact ⟨h.width, h.flags, herr, hpos, h4, hle, holen, hposle⟩

theorem RegInv.of_assemble {s : State} (hp : s.phase = .assemble) (hbusy : s.Busy)
    (hpos : s.pos.toNat < s.len.toNat) (hacc : s.acc.toNat < 2 ^ (8 * (s.pos.toNat % 4))) (hslot : s.slot = 4) :
    RegInv s where
  width := hbusy.width
  flags := hbusy.flags
  busy _ := ⟨hbusy.err, hbusy.len_pos, hbusy.len_aligned, hbusy.len_le, hbusy.olen, hbusy.pos_le⟩
  assembling _ := hpos
  wholeGroups := by simp [hp]
  success := by simp [hp]
  failure := by simp [hp]
  accClear := by simp [hp]
  accPartial _ := hacc
  accRunning := by simp [hp]
  slotHome _ := hslot
  placed := by simp [hp]
  filled := by simp [hp]

theorem RegInv.of_convert {s : State} (hp : s.phase = .convert) (hbusy : s.Busy)
    (hpos : s.pos.toNat % 4 = 0 ∧ 4 ≤ s.pos.toNat) (hacc : s.acc.toNat ≤ (2 ^ 32 - 1) / 85 ^ (4 - s.slot.val))
    (hplaced : ∀ i : Fin 5, s.slot < i → InAlphabet s.obuf[i]) : RegInv s where
  width := hbusy.width
  flags := hbusy.flags
  busy _ := ⟨hbusy.err, hbusy.len_pos, hbusy.len_aligned, hbusy.len_le, hbusy.olen, hbusy.pos_le⟩
  assembling := by simp [hp]
  wholeGroups _ := hpos
  success := by simp [hp]
  failure := by simp [hp]
  accClear := by simp [hp]
  accPartial := by simp [hp]
  accRunning _ := hacc
  slotHome := by simp [hp]
  placed _ := hplaced
  filled := by simp [hp]

theorem RegInv.of_emit {s : State} (hp : s.phase = .emit) (hbusy : s.Busy)
    (hpos : s.pos.toNat % 4 = 0 ∧ 4 ≤ s.pos.toNat) (hacc : s.acc = 0#32)
    (hfilled : ∀ i : Fin 5, InAlphabet s.obuf[i]) : RegInv s where
  width := hbusy.width
  flags := hbusy.flags
  busy _ := ⟨hbusy.err, hbusy.len_pos, hbusy.len_aligned, hbusy.len_le, hbusy.olen, hbusy.pos_le⟩
  assembling := by simp [hp]
  wholeGroups _ := hpos
  success := by simp [hp]
  failure := by simp [hp]
  accClear _ := hacc
  accPartial := by simp [hp]
  accRunning := by simp [hp]
  slotHome := by simp [hp]
  placed := by simp [hp]
  filled _ := hfilled

/-! ### Each operation keeps it -/

theorem RegInv.advance {s : State} (h : RegInv s) : RegInv s.advance := { h with }

theorem RegInv.resetRegisters {s : State} (hwidth : 1 ≤ s.lenW) : RegInv (s.resetRegisters.record .reset) :=
  RegInv.of_idle rfl hwidth rfl rfl rfl

/-- ACCEPT needs nothing of the state before it but its width. -/
theorem RegInv.of_execAccept {cmdLen : Nat} {s t : State} (hwidth : 1 ≤ s.lenW)
    (h : execAccept cmdLen s = .next t) : RegInv t := by
  obtain ⟨k, -, hk, rfl⟩ | ⟨-, h0, rfl⟩ | ⟨hok, h0, rfl⟩ := execAccept_cases h
  · exact RegInv.of_report rfl hwidth rfl rfl rfl (fun hok => absurd hok hk)
      fun _ => ⟨BitVec.toNat_zero, BitVec.toNat_zero⟩
  · exact RegInv.of_report rfl hwidth rfl rfl rfl (fun _ => by simp [h0]) fun hne => absurd rfl hne
  · obtain ⟨hle, h4⟩ := (lengthCheck_eq_ok _).1 hok
    have hbusy : State.Busy { (s.latchLength (BitVec.ofNat s.lenW cmdLen)).record
        (.cmd (BitVec.ofNat s.lenW cmdLen).toNat) with
          err := .ok, errparam := .zero, olen := resultLength (BitVec.ofNat s.lenW cmdLen), phase := .assemble } :=
      ⟨hwidth, rfl, rfl, Nat.pos_of_ne_zero h0, h4, hle, resultLength_toNat _ hle, by simp⟩
    exact RegInv.of_assemble rfl hbusy (by simpa using Nat.pos_of_ne_zero h0) (by simp) rfl

/-- In ASSEMBLE there is room for one more byte (R23). -/
theorem RegInv.pos_succ {s : State} (h : RegInv s) (hp : s.phase = .assemble) :
    (s.pos + 1#s.lenW).toNat = s.pos.toNat + 1 := by
  have hlt := h.assembling hp
  have hle := (h.toBusy (.inl hp)).len_le
  have hlimit := lenLimit_mul s.lenW
  exact toNat_add_of_lt s.pos 1 (by omega)

/-- A partial value of at most three bytes loses nothing to the shift (R171, R217). -/
theorem shiftByte_toNat_of_lt {acc : Value} {k : Nat} (b : Byte) (hk : k < 4) (hacc : acc.toNat < 2 ^ (8 * k)) :
    (shiftByte acc b).toNat = acc.toNat * 256 + b.toNat := by
  have hle : 2 ^ (8 * k) ≤ 2 ^ 24 := Nat.pow_le_pow_right (by decide) (by omega)
  rw [shiftByte_toNat, Nat.mod_eq_of_lt (Nat.lt_of_lt_of_le hacc hle)]

theorem shiftByte_lt {acc : Value} {k : Nat} (b : Byte) (hk : k < 4) (hacc : acc.toNat < 2 ^ (8 * k)) :
    (shiftByte acc b).toNat < 2 ^ (8 * (k + 1)) := by
  have hb := b.isLt
  have hpow : 2 ^ (8 * (k + 1)) = 2 ^ (8 * k) * 256 := by rw [Nat.mul_succ, Nat.pow_add]
  rw [shiftByte_toNat_of_lt b hk hacc]
  omega

theorem RegInv.of_execShiftin {b : Byte} {s t : State} (h : RegInv s) (hp : s.phase = .assemble)
    (ht : execShiftin b s = .next t) : RegInv t := by
  have hpos := h.pos_succ hp
  have hlt := h.assembling hp
  have hacc := h.accPartial hp
  obtain ⟨hwidth, hflags, herr, hlen, h4, hle, holen, -⟩ := h.toBusy (.inl hp)
  have hposle : (s.pos + 1#s.lenW).toNat ≤ s.len.toNat := by omega
  by_cases hlast : (s.pos + 1#s.lenW).toNat % 4 = 0
  · cases (execShiftin_last hlast).symm.trans ht
    refine RegInv.of_convert rfl ⟨hwidth, hflags, herr, hlen, h4, hle, holen, hposle⟩ ⟨hlast, ?_⟩ ?_ ?_
    · dsimp only; omega
    · exact Nat.le_of_lt_succ (Nat.lt_of_lt_of_eq (shiftByte s.acc b).isLt (by simp))
    · intro i hi
      exact absurd hi (by simpa using Fin.le_last i)
  · cases (execShiftin_inside hlast).symm.trans ht
    have hgroup : (s.pos + 1#s.lenW).toNat % 4 = s.pos.toNat % 4 + 1 := by omega
    refine RegInv.of_assemble hp ⟨hwidth, hflags, herr, hlen, h4, hle, holen, hposle⟩ ?_ ?_ (h.slotHome (by simp [hp]))
    · dsimp only; omega
    · dsimp only
      rw [hgroup]
      exact shiftByte_lt b (Nat.mod_lt _ (by decide)) hacc

theorem RegInv.of_execDivstep {s t : State} (h : RegInv s) (hp : s.phase = .convert)
    (ht : execDivstep s = .next t) : RegInv t := by
  have hpos := h.wholeGroups (.inl hp)
  have hacc := h.accRunning hp
  have hplaced := h.placed hp
  obtain ⟨hwidth, hflags, herr, hlen, h4, hle, holen, hposle⟩ := h.toBusy (.inr (.inl hp))
  have hset (i : Fin 5) (hi : s.slot ≤ i) : InAlphabet (s.obuf.set s.slot (alpha (digitOf s.acc)))[i] := by
    rw [obuf_set_get]
    split
    · exact alpha_mem _
    · exact hplaced i (lt_of_le_of_ne hi (Ne.symm ‹_›))
  by_cases hlast : s.slot.val = 0
  · cases (execDivstep_last hlast).symm.trans ht
    refine RegInv.of_emit rfl ⟨hwidth, hflags, herr, hlen, h4, hle, holen, hposle⟩ hpos ?_ ?_
    · apply BitVec.eq_of_toNat_eq
      rw [hlast] at hacc
      dsimp only
      rw [quotientOf_toNat]
      exact Nat.div_eq_of_lt (by omega)
    · exact fun i => hset i (by simp [Fin.le_def, hlast])
  · cases (execDivstep_inside hlast).symm.trans ht
    refine RegInv.of_convert hp ⟨hwidth, hflags, herr, hlen, h4, hle, holen, hposle⟩ hpos ?_ ?_
    · have hweight : 4 - (s.slot.val - 1) = 4 - s.slot.val + 1 := by omega
      dsimp only
      rw [quotientOf_toNat, hweight, Nat.pow_succ 85, ← Nat.div_div_eq_div_mul]
      exact Nat.div_le_div_right hacc
    · intro i hi
      exact hset i (by simp only [Fin.lt_def, Fin.le_def] at hi ⊢; omega)

theorem RegInv.of_execEmit {s t : State} (h : RegInv s) (hp : s.phase = .emit)
    (ht : execEmit s = .next t) : RegInv t := by
  have hpos := h.wholeGroups (.inr hp)
  have hacc := h.accClear (.inr (.inl hp))
  obtain ⟨hwidth, hflags, herr, hlen, h4, hle, holen, hposle⟩ := h.toBusy (.inr (.inr hp))
  by_cases hlast : s.slot.val = 4
  · cases (execEmit_last hlast).symm.trans ht
    have hslot : s.slot = 4 := Fin.ext hlast
    by_cases hend : s.pos = s.len
    · exact RegInv.of_report (if_pos hend) hwidth hflags hacc hslot
        (fun _ => ⟨congrArg BitVec.toNat hend, h4, hle, holen⟩) fun hne => absurd herr hne
    · have hlt : s.pos.toNat < s.len.toNat := lt_of_le_of_ne hposle (BitVec.toNat_inj.not.2 hend)
      refine RegInv.of_assemble (if_neg hend) ⟨hwidth, hflags, herr, hlen, h4, hle, holen, hposle⟩ hlt ?_ hslot
      simp [hacc]
  · cases (execEmit_inside hlast).symm.trans ht
    exact RegInv.of_emit hp ⟨hwidth, hflags, herr, hlen, h4, hle, holen, hposle⟩ hpos hacc (h.filled hp)

theorem RegInv.handOverStatus {s : State} (h : RegInv s) (hp : s.phase = .report) (word : Status) :
    RegInv (s.handOverStatus word) :=
  RegInv.of_idle rfl h.width h.flags (h.accClear (.inr (.inr hp))) (h.slotHome (.inr (.inr hp)))

/-- Settles O33: each operation leads from the phase it is selected in to a phase whose invariant it establishes. -/
theorem stepKeepsTheRegisterInvariant : Obligations.StepKeepsTheRegisterInvariant := by
  unfold Obligations.StepKeepsTheRegisterInvariant
  intro s t hs h
  exact step_keeps (P := RegInv) (fun _ => RegInv.advance) (fun _ hs => RegInv.resetRegisters hs.width)
    (fun _ _ _ hs _ => RegInv.of_execAccept hs.width) (fun _ _ _ => RegInv.of_execShiftin)
    (fun _ _ => RegInv.of_execDivstep) (fun _ _ => RegInv.of_execEmit)
    (fun _ word hs hp _ => hs.handOverStatus hp word) hs h

/-- Settles O32: IDLE with `acc` 0 and `slot` 4. -/
theorem resetStateMeetsTheRegisterInvariant : Obligations.ResetStateMeetsTheRegisterInvariant := by
  unfold Obligations.ResetStateMeetsTheRegisterInvariant
  exact RegInv.of_idle rfl (by decide) rfl rfl rfl

/-! ### What the register invariant gives for a step -/

/-- Settles O36: in ASSEMBLE `pos` is below `len`, so counting one byte does not wrap. -/
theorem sourcePositionNeverWraps : Obligations.SourcePositionNeverWraps := by
  unfold Obligations.SourcePositionNeverWraps
  intro s hs hp hr hv
  have hlt := hs.assembling hp
  have hpos := hs.pos_succ hp
  have hlimit := lenLimit_mul s.lenW
  refine ⟨_, (step_assemble hr hp).trans ((if_pos hv).trans (execShiftin_eq _ _)), hpos, ?_,
    (hs.toBusy (.inl hp)).len_le, ?_⟩
  · exact hpos.trans_le hlt
  · dsimp only [State.advance_lenW]; omega

/-- Every code of the table is below `0x80` (R94). -/
theorem romTable_bit7 : ∀ c ∈ romTable, c.getLsbD 7 = false := by decide

/-- Settles O37: the character is the one EMIT offers, and in EMIT the buffer is filled from the table. -/
theorem onlyAlphabetCharactersAreSent : Obligations.OnlyAlphabetCharactersAreSent := by
  unfold Obligations.OnlyAlphabetCharactersAreSent
  intro s t c hs h hevents
  obtain ⟨hop, rfl⟩ := State.recorded_eq_char (List.append_cancel_left ((step_events h).symm.trans hevents))
  have hmem : InAlphabet s.obuf[s.slot] := hs.filled (selectedOp_eq_emit hop) s.slot
  exact ⟨hmem, romTable_bit7 _ hmem⟩

end Sys2Proof.Machine
end

/-! The call invariant, operation by operation (46_sequencing.md R217, R219 and the proof outline of R220). -/
section
namespace Sys2Proof.Machine

/-! ### The history with one more event -/

/-- Whether a call is open after an event (R73). -/
def Event.opens (isOpen : Bool) : Event → Bool
  | .cmd _ => true
  | .reset | .status _ => false
  | .byte _ | .char _ => isOpen

theorem callOpen_snoc (es : List Event) (e : Event) : callOpen (es ++ [e]) = e.opens (callOpen es) := by
  cases e <;> simp [callOpen, Event.opens]

theorem lastCmd_snoc_cmd (es : List Event) (len : Nat) : lastCmd (es ++ [.cmd len]) = some len := by
  simp [lastCmd]

theorem lastCmd_snoc_byte (es : List Event) (b : Byte) : lastCmd (es ++ [.byte b]) = lastCmd es := by
  simp [lastCmd]

theorem lastCmd_snoc_char (es : List Event) (c : Byte) : lastCmd (es ++ [.char c]) = lastCmd es := by
  simp [lastCmd]

theorem callBytes_snoc_cmd (es : List Event) (len : Nat) : callBytes (es ++ [.cmd len]) = [] := by
  simp [callBytes, callTail_snoc, tailStep, bytesOf]

theorem bytesVal_snoc (bytes : List Byte) (b : Byte) : bytesVal (bytes ++ [b]) = bytesVal bytes * 256 + b.toNat := by
  simp [bytesVal]

/-- One whole group: its four bytes, then its five characters. -/
theorem groupEvents_of_length_four {bytes : List Byte} (h : bytes.length = 4) :
    groupEvents bytes = bytes.map .byte ++ (encGroups bytes).map .char := by
  obtain ⟨b0, b1, b2, b3, rfl⟩ := List.length_eq_four.1 h
  simp [groupEvents, encGroups]

theorem encGroups_getElem?_of_length_four {bytes : List Byte} (h : bytes.length = 4) (k : Fin 5) :
    (encGroups bytes)[k.val]? = some (alpha (digitAt (bytesVal bytes) k)) := by
  obtain ⟨b0, b1, b2, b3, rfl⟩ := List.length_eq_four.1 h
  rw [bytesVal_four]
  simpa [encGroups] using encGroup_getElem? b0 b1 b2 b3 k

/-! ### The call invariant of an idle block -/

/-- In IDLE the call invariant says that no call is open, over the register invariant. -/
theorem CallInv.of_idle {s : State} (h : RegInv s) (hp : s.phase = .idle) (hopen : callOpen s.events = false) :
    CallInv s where
  toRegInv := h
  isOpen := by simp [hp, hopen]
  length := by simp [hp]
  verdict := by simp [hp]
  count := by simp [hp]
  history := by simp [hp]
  partialValue := by simp [hp]
  runningAcc := by simp [hp]
  placedDigits := by simp [hp]
  filledDigits := by simp [hp]

/-- RESET establishes the call invariant from any state with LEN_W at least 1. -/
theorem CallInv.of_resetRegisters {s : State} (hwidth : 1 ≤ s.lenW) :
    CallInv (s.resetRegisters.record .reset) :=
  CallInv.of_idle (RegInv.resetRegisters hwidth) rfl (callOpen_snoc _ _)

theorem CallInv.advance {s : State} (h : CallInv s) : CallInv s.advance := { h with toRegInv := h.toRegInv.advance }

/-! ### The call invariant inside a call -/

/-- The part of the call invariant that does not depend on the phase inside a call. -/
structure State.InCall (s : State) : Prop where
  isOpen : callOpen s.events = true
  length : lastCmd s.events = some s.len.toNat
  verdict : s.err = lengthCheck s.len
  count : (callBytes s.events).length = s.pos.toNat
  history : callTail s.events = s.expectedTail

theorem CallInv.toInCall {s : State} (h : CallInv s) (hp : s.phase ≠ .idle) : s.InCall :=
  ⟨by simp [h.isOpen, hp], h.length hp, h.verdict hp, h.count hp, h.history hp⟩

section
variable {s : State} (hreg : RegInv s) (hcall : s.InCall)
include hreg hcall

theorem CallInv.of_report (hp : s.phase = .report) : CallInv s where
  toRegInv := hreg
  isOpen := by simp [hp, hcall.isOpen]
  length _ := hcall.length
  verdict _ := hcall.verdict
  count _ := hcall.count
  history _ := hcall.history
  partialValue := by simp [hp]
  runningAcc := by simp [hp]
  placedDigits := by simp [hp]
  filledDigits := by simp [hp]

theorem CallInv.of_assemble (hp : s.phase = .assemble) (hacc : s.acc.toNat = bytesVal s.groupBytes) :
    CallInv s where
  toRegInv := hreg
  isOpen := by simp [hp, hcall.isOpen]
  length _ := hcall.length
  verdict _ := hcall.verdict
  count _ := hcall.count
  history _ := hcall.history
  partialValue _ := hacc
  runningAcc := by simp [hp]
  placedDigits := by simp [hp]
  filledDigits := by simp [hp]

theorem CallInv.of_convert (hp : s.phase = .convert)
    (hacc : s.acc.toNat = bytesVal s.groupBytes / 85 ^ (4 - s.slot.val))
    (hplaced : ∀ i : Fin 5, s.slot < i → s.obuf[i] = alpha (digitAt (bytesVal s.groupBytes) i)) : CallInv s where
  toRegInv := hreg
  isOpen := by simp [hp, hcall.isOpen]
  length _ := hcall.length
  verdict _ := hcall.verdict
  count _ := hcall.count
  history _ := hcall.history
  partialValue := by simp [hp]
  runningAcc _ := hacc
  placedDigits _ := hplaced
  filledDigits := by simp [hp]

theorem CallInv.of_emit (hp : s.phase = .emit)
    (hfilled : ∀ i : Fin 5, s.obuf[i] = alpha (digitAt (bytesVal s.groupBytes) i)) : CallInv s where
  toRegInv := hreg
  isOpen := by simp [hp, hcall.isOpen]
  length _ := hcall.length
  verdict _ := hcall.verdict
  count _ := hcall.count
  history _ := hcall.history
  partialValue := by simp [hp]
  runningAcc := by simp [hp]
  placedDigits := by simp [hp]
  filledDigits _ := hfilled

end

theorem State.groupStart_assemble {s : State} (hp : s.phase = .assemble) :
    s.groupStart = 4 * (s.pos.toNat / 4) := by
  simp only [State.groupStart, hp]

theorem State.groupStart_convert_or_emit {s : State} (hp : s.phase = .convert ∨ s.phase = .emit) :
    s.groupStart = s.pos.toNat - 4 := by
  obtain hp | hp := hp <;> simp only [State.groupStart, hp]

theorem State.groupStart_report {s : State} (hp : s.phase = .report) : s.groupStart = s.pos.toNat := by
  simp only [State.groupStart, hp]

/-- Outside EMIT the call's events are those of the whole groups and the bytes of the group in hand. -/
theorem State.expectedTail_of_ne_emit {s : State} (hp : s.phase ≠ .emit) :
    s.expectedTail = groupEvents ((callBytes s.events).take s.groupStart) ++ s.groupBytes.map .byte := by
  rw [State.expectedTail, if_neg hp, List.append_nil]

/-! ### ACCEPT -/

/-- A state whose last event is the command of its length, with no byte taken: the call's start. -/
theorem State.InCall.of_command {s : State} {es : List Event} (hevents : s.events = es ++ [.cmd s.len.toNat])
    (hp : s.phase ≠ .emit) (hpos : s.pos.toNat = 0) (hverdict : s.err = lengthCheck s.len) : s.InCall where
  isOpen := by rw [hevents, callOpen_snoc]; rfl
  length := by rw [hevents, lastCmd_snoc_cmd]
  verdict := hverdict
  count := by rw [hevents, callBytes_snoc_cmd, hpos]; rfl
  history := by
    rw [State.expectedTail_of_ne_emit hp, State.groupBytes, hevents, callBytes_snoc_cmd, callTail_snoc]
    simp [tailStep, groupEvents]

theorem CallInv.of_execAccept {cmdLen : Nat} {s t : State} (hwidth : 1 ≤ s.lenW)
    (h : execAccept cmdLen s = .next t) : CallInv t := by
  have hreg := RegInv.of_execAccept hwidth h
  obtain ⟨k, hk, -, rfl⟩ | ⟨hok, -, rfl⟩ | ⟨hok, -, rfl⟩ := execAccept_cases h
  · exact CallInv.of_report hreg (.of_command rfl (by simp) BitVec.toNat_zero hk.symm) rfl
  · exact CallInv.of_report hreg (.of_command rfl (by simp) BitVec.toNat_zero hok.symm) rfl
  · refine CallInv.of_assemble hreg (.of_command rfl (by simp) BitVec.toNat_zero hok.symm) rfl ?_
    simp [State.groupBytes, callBytes_snoc_cmd, bytesVal]

/-! ### SHIFTIN -/

section
variable {s t : State} {b : Byte} (hevents : t.events = s.events ++ [.byte b])
  (hstart : t.groupStart = s.groupStart) (hroom : s.groupStart ≤ (callBytes s.events).length)
include hevents hstart hroom

theorem State.groupBytes_snoc_byte : t.groupBytes = s.groupBytes ++ [b] := by
  rw [State.groupBytes, hevents, hstart, callBytes_snoc_byte, List.drop_append_of_le_length hroom, State.groupBytes]

/-- A byte of the group in hand adds itself to the events the call must have had. -/
theorem State.expectedTail_snoc_byte (hs : s.phase ≠ .emit) (ht : t.phase ≠ .emit) :
    t.expectedTail = s.expectedTail ++ [.byte b] := by
  rw [State.expectedTail_of_ne_emit ht, State.expectedTail_of_ne_emit hs,
    State.groupBytes_snoc_byte hevents hstart hroom, hevents, hstart, callBytes_snoc_byte, List.take_append_of_le_length hroom]
  simp

end

/-- One more byte of a call, whether or not it completes its group. -/
theorem State.InCall.snoc_byte {s t : State} {b : Byte} (h : s.InCall) (hs : s.phase = .assemble)
    (ht : t.phase ≠ .emit) (hevents : t.events = s.events ++ [.byte b]) (hstart : t.groupStart = s.groupStart)
    (hlen : t.len.toNat = s.len.toNat) (hverdict : t.err = lengthCheck t.len)
    (hpos : t.pos.toNat = s.pos.toNat + 1) : t.InCall where
  isOpen := by rw [hevents, callOpen_snoc]; exact h.isOpen
  length := by rw [hevents, lastCmd_snoc_byte, hlen, h.length]
  verdict := hverdict
  count := by rw [hevents, callBytes_snoc_byte, List.length_append, h.count, hpos]; rfl
  history := by
    have hroom : s.groupStart ≤ (callBytes s.events).length := by
      rw [State.groupStart_assemble hs, h.count]
      omega
    rw [State.expectedTail_snoc_byte hevents hstart hroom (by simp [hs]) ht, hevents, callTail_snoc, h.history]
    rfl

theorem CallInv.of_execShiftin {b : Byte} {s t : State} (h : CallInv s) (hp : s.phase = .assemble)
    (ht : execShiftin b s = .next t) : CallInv t := by
  have hreg := RegInv.of_execShiftin h.toRegInv hp ht
  have hcall := h.toInCall (by simp [hp])
  have hpos := h.toRegInv.pos_succ hp
  have hroom : s.groupStart ≤ (callBytes s.events).length := by
    rw [State.groupStart_assemble hp, hcall.count]
    omega
  have hacc : (shiftByte s.acc b).toNat = bytesVal (s.groupBytes ++ [b]) := by
    rw [bytesVal_snoc, shiftByte_toNat_of_lt b (Nat.mod_lt _ (by decide)) (h.accPartial hp), h.partialValue hp]
  by_cases hlast : (s.pos + 1#s.lenW).toNat % 4 = 0
  · have htu := Host.Outcome.next.inj ((execShiftin_last hlast).symm.trans ht)
    have hphase : t.phase = .convert := htu ▸ rfl
    have hevents : t.events = s.events ++ [.byte b] := htu ▸ rfl
    have hpos' : t.pos.toNat = s.pos.toNat + 1 := htu ▸ hpos
    have hstart : t.groupStart = s.groupStart := by
      rw [State.groupStart_convert_or_emit (.inl hphase), State.groupStart_assemble hp]
      omega
    have hcall' := hcall.snoc_byte hp (by simp [hphase]) hevents hstart (htu ▸ rfl) (htu ▸ hcall.verdict) hpos'
    refine CallInv.of_convert hreg hcall' hphase ?_ ?_
    · rw [State.groupBytes_snoc_byte hevents hstart hroom, ← hacc, ← htu]
      exact (Nat.div_one _).symm
    · intro i hi
      rw [← htu] at hi
      exact absurd hi (by simpa using Fin.le_last i)
  · have htu := Host.Outcome.next.inj ((execShiftin_inside hlast).symm.trans ht)
    have hphase : t.phase = .assemble := htu ▸ hp
    have hevents : t.events = s.events ++ [.byte b] := htu ▸ rfl
    have hpos' : t.pos.toNat = s.pos.toNat + 1 := htu ▸ hpos
    have hstart : t.groupStart = s.groupStart := by
      rw [State.groupStart_assemble hphase, State.groupStart_assemble hp]
      omega
    have hcall' := hcall.snoc_byte hp (by simp [hphase]) hevents hstart (htu ▸ rfl) (htu ▸ hcall.verdict) hpos'
    refine CallInv.of_assemble hreg hcall' hphase ?_
    rw [State.groupBytes_snoc_byte hevents hstart hroom, ← hacc, ← htu]

/-! ### DIVSTEP -/

/-- Entering EMIT at slot 0, or staying in CONVERT, changes nothing of what the events must be. -/
theorem State.InCall.of_convert {s t : State} (h : s.InCall) (hs : s.phase = .convert)
    (ht : t.phase = .convert ∨ t.phase = .emit ∧ t.slot.val = 0) (hevents : t.events = s.events)
    (hlen : t.len.toNat = s.len.toNat) (hverdict : t.err = lengthCheck t.len) (hpos : t.pos.toNat = s.pos.toNat) :
    t.InCall ∧ t.groupBytes = s.groupBytes := by
  have hstart : t.groupStart = s.groupStart := by
    rw [State.groupStart_convert_or_emit (ht.imp_right And.left), State.groupStart_convert_or_emit (.inl hs), hpos]
  have hgroup : t.groupBytes = s.groupBytes := by rw [State.groupBytes, hevents, hstart, State.groupBytes]
  have hnone : (if t.phase = .emit then ((encGroups t.groupBytes).take t.slot.val).map Event.char else []) = [] := by
    obtain hp | ⟨hp, h0⟩ := ht
    · simp [hp]
    · simp [hp, h0]
  refine ⟨⟨hevents ▸ h.isOpen, by rw [hevents, hlen, h.length], hverdict, by rw [hevents, h.count, hpos], ?_⟩, hgroup⟩
  rw [State.expectedTail, hnone, hgroup, hevents, hstart, h.history,
    State.expectedTail_of_ne_emit (by simp [hs]), List.append_nil]

theorem CallInv.of_execDivstep {s t : State} (h : CallInv s) (hp : s.phase = .convert)
    (ht : execDivstep s = .next t) : CallInv t := by
  have hreg := RegInv.of_execDivstep h.toRegInv hp ht
  have hcall := h.toInCall (by simp [hp])
  have hacc := h.runningAcc hp
  have hplaced := h.placedDigits hp
  have hdigit : digitOf s.acc = digitAt (bytesVal s.groupBytes) s.slot := by
    apply Fin.ext
    simp only [digitOf_val, hacc, digitAt]
  have hset (i : Fin 5) (hi : s.slot ≤ i) : (s.obuf.set s.slot (alpha (digitOf s.acc)))[i] =
      alpha (digitAt (bytesVal s.groupBytes) i) := by
    rw [obuf_set_get]
    split
    · rename_i heq
      rw [hdigit, heq]
    · exact hplaced i (lt_of_le_of_ne hi (Ne.symm ‹_›))
  by_cases hlast : s.slot.val = 0
  · have htu := Host.Outcome.next.inj ((execDivstep_last hlast).symm.trans ht)
    have hphase : t.phase = .emit := htu ▸ rfl
    obtain ⟨hcall', hgroup⟩ := hcall.of_convert (t := t) hp (.inr ⟨hphase, htu ▸ hlast⟩) (htu ▸ rfl) (htu ▸ rfl)
      (htu ▸ hcall.verdict) (htu ▸ rfl)
    refine CallInv.of_emit hreg hcall' hphase fun i => ?_
    rw [hgroup, ← htu]
    exact hset i (by simp [Fin.le_def, hlast])
  · have htu := Host.Outcome.next.inj ((execDivstep_inside hlast).symm.trans ht)
    have hphase : t.phase = .convert := htu ▸ hp
    obtain ⟨hcall', hgroup⟩ := hcall.of_convert (t := t) hp (.inl hphase) (htu ▸ rfl) (htu ▸ rfl)
      (htu ▸ hcall.verdict) (htu ▸ rfl)
    refine CallInv.of_convert hreg hcall' hphase ?_ fun i hi => ?_
    · have hweight : 4 - (s.slot.val - 1) = 4 - s.slot.val + 1 := by omega
      rw [hgroup, ← htu]
      dsimp only
      rw [quotientOf_toNat, hacc, hweight, Nat.pow_succ 85, ← Nat.div_div_eq_div_mul]
    · rw [← htu, Fin.lt_def] at hi
      rw [hgroup, ← htu]
      exact hset i (by rw [Fin.le_def]; dsimp only at hi; omega)

/-! ### EMIT -/

section
variable {s : State} (h : CallInv s) (hp : s.phase = .emit)
include h hp

/-- The character on offer in EMIT is the next one of the group in hand (R190, R219). -/
theorem CallInv.emit_take_succ :
    (encGroups s.groupBytes).take (s.slot.val + 1) = (encGroups s.groupBytes).take s.slot.val ++ [s.obuf[s.slot]] := by
  obtain ⟨-, hgroup⟩ := h.emit_bytes_length hp
  rw [List.take_add_one, encGroups_getElem?_of_length_four hgroup, h.filledDigits hp]
  rfl

/-- The call's events after an EMIT: its whole groups before the one in hand, the bytes of that one, and one
character more. -/
theorem CallInv.emit_callTail : callTail (s.events ++ [.char s.obuf[s.slot]]) =
    groupEvents ((callBytes s.events).take s.groupStart) ++ s.groupBytes.map .byte ++
      ((encGroups s.groupBytes).take (s.slot.val + 1)).map .char := by
  have hcall := h.toInCall (by simp [hp])
  rw [callTail_snoc, hcall.history, State.expectedTail, if_pos hp, h.emit_take_succ hp]
  simp [tailStep]

/-- After the fifth character of a group the call's events are those of the bytes taken (R73). -/
theorem CallInv.emit_callTail_last (hlast : s.slot.val = 4) :
    callTail (s.events ++ [.char s.obuf[s.slot]]) = groupEvents (callBytes s.events) := by
  obtain ⟨hbefore, hgroup⟩ := h.emit_bytes_length hp
  obtain ⟨h4, -⟩ := h.wholeGroups (.inr hp)
  have hfive : (encGroups s.groupBytes).length = 5 := by rw [encGroups_length _ (by omega), hgroup]
  have hsource : (callBytes s.events).take s.groupStart ++ s.groupBytes = callBytes s.events :=
    List.take_append_drop _ _
  rw [h.emit_callTail hp, hlast, List.take_of_length_le (l := encGroups s.groupBytes) (by omega), List.append_assoc,
    ← groupEvents_of_length_four hgroup, ← groupEvents_append _ _ (by omega), hsource]

end

/-- A call between two groups, or after its last one: no group is in hand. -/
theorem State.expectedTail_of_groupStart {s : State} (hp : s.phase ≠ .emit)
    (hstart : (callBytes s.events).length = s.groupStart) :
    s.expectedTail = groupEvents (callBytes s.events) ∧ s.groupBytes = [] := by
  have hnone : s.groupBytes = [] := by rw [State.groupBytes, ← hstart, List.drop_length]
  rw [State.expectedTail_of_ne_emit hp, hnone, ← hstart, List.take_length]
  simp

theorem CallInv.of_execEmit {s t : State} (h : CallInv s) (hp : s.phase = .emit)
    (ht : execEmit s = .next t) : CallInv t := by
  have hreg := RegInv.of_execEmit h.toRegInv hp ht
  have hcall := h.toInCall (by simp [hp])
  obtain ⟨h4, -⟩ := h.wholeGroups (.inr hp)
  have hopen (c : Byte) : callOpen (s.events ++ [.char c]) = true := (callOpen_snoc _ _).trans hcall.isOpen
  have hlength (c : Byte) : lastCmd (s.events ++ [.char c]) = some s.len.toNat :=
    (lastCmd_snoc_char _ _).trans hcall.length
  have hcount (c : Byte) : (callBytes (s.events ++ [.char c])).length = s.pos.toNat := by
    rw [callBytes_snoc_char, hcall.count]
  by_cases hlast : s.slot.val = 4
  · have htu := Host.Outcome.next.inj ((execEmit_last hlast).symm.trans ht)
    have hphase : t.phase = if s.pos = s.len then .report else .assemble := htu ▸ rfl
    have hevents : t.events = s.events ++ [.char s.obuf[s.slot]] := htu ▸ rfl
    have hne : t.phase ≠ .emit := by rw [hphase]; split <;> simp
    have hpos : t.pos.toNat = s.pos.toNat := htu ▸ rfl
    have hstart : (callBytes t.events).length = t.groupStart := by
      rw [hevents, hcount]
      split at hphase
      · rw [State.groupStart_report hphase, hpos]
      · rw [State.groupStart_assemble hphase, hpos]
        omega
    obtain ⟨htail, hgroup⟩ := State.expectedTail_of_groupStart hne hstart
    have hcall' : t.InCall := by
      refine ⟨?_, ?_, ?_, ?_, ?_⟩
      · rw [hevents, hopen]
      · rw [hevents, hlength, ← htu]
      · exact htu ▸ hcall.verdict
      · rw [hevents, hcount, hpos]
      · rw [htail, hevents, h.emit_callTail_last hp hlast, callBytes_snoc_char]
    by_cases hend : s.pos = s.len
    · exact CallInv.of_report hreg hcall' (hphase.trans (if_pos hend))
    · refine CallInv.of_assemble hreg hcall' (hphase.trans (if_neg hend)) ?_
      rw [hgroup, ← htu]
      exact congrArg BitVec.toNat (h.accClear (.inr (.inl hp)))
  · have htu := Host.Outcome.next.inj ((execEmit_inside hlast).symm.trans ht)
    have hphase : t.phase = .emit := htu ▸ hp
    have hevents : t.events = s.events ++ [.char s.obuf[s.slot]] := htu ▸ rfl
    have hstart : t.groupStart = s.groupStart := by
      rw [State.groupStart_convert_or_emit (.inr hphase), State.groupStart_convert_or_emit (.inr hp), ← htu]
    have hgroup : t.groupBytes = s.groupBytes := by
      rw [State.groupBytes, State.groupBytes, hstart, hevents, callBytes_snoc_char]
    refine CallInv.of_emit hreg ⟨htu ▸ hopen _, htu ▸ hlength _, htu ▸ hcall.verdict, htu ▸ hcount _, ?_⟩ hphase
      fun i => ?_
    · rw [State.expectedTail, if_pos hphase, hgroup, hstart, hevents, h.emit_callTail hp, callBytes_snoc_char, ← htu]
    · rw [hgroup, ← htu]
      exact h.filledDigits hp i

/-! ### Every step -/

/-- The status closes the call. -/
theorem CallInv.handOverStatus {s : State} (h : CallInv s) (hp : s.phase = .report) (word : Status) :
    CallInv (s.handOverStatus word) :=
  CallInv.of_idle (h.toRegInv.handOverStatus hp word) rfl (callOpen_snoc _ _)

/-- Settles O35: each operation leads from the phase it is selected in to a phase whose invariant it establishes. -/
theorem stepKeepsTheCallInvariant : Obligations.StepKeepsTheCallInvariant := by
  unfold Obligations.StepKeepsTheCallInvariant
  intro s t hs h
  exact step_keeps (P := CallInv) (fun _ => CallInv.advance) (fun _ hs => CallInv.of_resetRegisters hs.width)
    (fun _ _ _ hs _ => CallInv.of_execAccept hs.width) (fun _ _ _ => CallInv.of_execShiftin)
    (fun _ _ => CallInv.of_execDivstep) (fun _ _ => CallInv.of_execEmit)
    (fun _ word hs hp _ => hs.handOverStatus hp word) hs h

/-- Settles O34: the register invariant in IDLE, with an empty history. -/
theorem resetStateMeetsTheCallInvariant : Obligations.ResetStateMeetsTheCallInvariant := by
  unfold Obligations.ResetStateMeetsTheCallInvariant
  exact CallInv.of_idle resetStateMeetsTheRegisterInvariant rfl rfl

end Sys2Proof.Machine
end

/-! Whole calls: nesting, result, independence of history and schedule (46_sequencing.md R220, R222, R223). -/
section
namespace Sys2Proof.Machine

/-! ### Nested histories -/

theorem wellNested_cons (isOpen : Bool) (e : Event) (es : List Event) :
    wellNested isOpen (e :: es) = (wellNested isOpen [e] && wellNested (e.opens isOpen) es) := by
  cases e <;> simp [wellNested, Event.opens]

theorem callOpen_append (es fs : List Event) : callOpen (es ++ fs) = fs.foldl Event.opens (callOpen es) := by
  induction fs using List.reverseRecOn with
  | nil => simp
  | append_singleton fs e ih => rw [← List.append_assoc, callOpen_snoc, ih, List.foldl_append]; rfl

theorem wellNested_append (isOpen : Bool) (es fs : List Event) :
    wellNested isOpen (es ++ fs) = (wellNested isOpen es && wellNested (es.foldl Event.opens isOpen) fs) := by
  induction es generalizing isOpen with
  | nil => simp [wellNested]
  | cons e es ih =>
    rw [List.cons_append, wellNested_cons, ih, wellNested_cons isOpen e es, List.foldl_cons, Bool.and_assoc]

/-- The event of a step is one that can follow: a command in IDLE, a transfer or a status elsewhere. -/
theorem wellNested_recorded {s : State} (h : CallInv s) :
    wellNested (callOpen s.events) (s.recorded (selectedOp s.lenW s.phase s.line)) = true := by
  rw [h.isOpen]
  cases hr : s.line.rst with
  | true => simp [selectedOp_reset _ _ hr, State.recorded, wellNested]
  | false =>
    cases hp : s.phase with
    | idle => cases hv : s.line.cmdValid <;> simp [selectedOp, hr, hv, State.recorded, wellNested]
    | assemble => cases hv : s.line.inValid <;> simp [selectedOp, hr, hv, State.recorded, wellNested]
    | convert => simp [selectedOp, hr, State.recorded, wellNested]
    | emit => cases hv : s.line.outReady <;> simp [selectedOp, hr, hv, State.recorded, wellNested]
    | report =>
      cases hv : s.line.stReady <;> cases hw : s.status? <;>
        simp [selectedOp, hr, hv, hw, State.recorded, wellNested]

/-- A run from a state that meets the call invariant adds events that nest. -/
theorem run_wellNested {n : Nat} {s t : State} (hs : CallInv s) (h : runSteps n s = .next t) :
    ∃ es, t.events = s.events ++ es ∧ wellNested (callOpen s.events) es = true := by
  induction n generalizing t with
  | zero =>
    cases h
    exact ⟨[], (List.append_nil _).symm, rfl⟩
  | succ n ih =>
    obtain ⟨u, hrun, hstep⟩ := run_last h
    obtain ⟨es, hevents, hnested⟩ := ih hrun
    have hu : CallInv u := run_keeps stepKeepsTheCallInvariant hs hrun
    refine ⟨_, (step_events hstep).trans (by rw [hevents, List.append_assoc]), ?_⟩
    rw [wellNested_append, hnested, ← callOpen_append, ← hevents]
    exact wellNested_recorded hu

/-- Settles O38: the induction along the run, with the call invariant for whether a call is open. -/
theorem callsNeverOverlap : Obligations.CallsNeverOverlap := by
  unfold Obligations.CallsNeverOverlap
  exact fun _ _ _ => run_wellNested

/-! ### The step that records the last event -/

theorem run_lenW {n : Nat} {s t : State} (h : runSteps n s = .next t) : t.lenW = s.lenW := by
  refine run_keeps (P := fun u => u.lenW = s.lenW) (fun u v hu hstep => ?_) rfl h
  obtain ⟨hlenW, -, -⟩ := stepExtendsTheHistoryByAtMostOneEvent u v hstep
  exact hlenW.trans hu

/-- The last event a run has added was recorded by one of its steps. -/
theorem run_records_last {n : Nat} {s t : State} {es : List Event} {e : Event} (h : runSteps n s = .next t)
    (hevents : t.events = s.events ++ (es ++ [e])) : ∃ m u, runSteps m s = .next u ∧
      u.events = s.events ++ es ∧ u.recorded (selectedOp u.lenW u.phase u.line) = [e] := by
  induction n generalizing t with
  | zero =>
    cases h
    simp at hevents
  | succ n ih =>
    obtain ⟨u, hrun, hstep⟩ := run_last h
    have hadded := (step_events hstep).symm.trans hevents
    obtain hnone | ⟨e', hone⟩ := u.recorded_cases (selectedOp u.lenW u.phase u.line)
    · exact ih hrun (by rwa [hnone, List.append_nil] at hadded)
    · rw [hone, ← List.append_assoc] at hadded
      obtain ⟨hbefore, hlast⟩ := List.append_inj' hadded rfl
      exact ⟨n, u, hrun, hbefore, hone.trans hlast⟩

/-! ### The state in which a call ends -/

/-- Nested events of an open call that end no call hold no command either. -/
theorem callTail_of_wellNested {es mid : List Event} (hmid : ∀ e ∈ mid, e.endsCall = false)
    (hnested : wellNested true mid = true) :
    callTail (es ++ mid) = callTail es ++ mid ∧ lastCmd (es ++ mid) = lastCmd es := by
  induction mid generalizing es with
  | nil => simp
  | cons e mid ih =>
    obtain ⟨hend, hrest⟩ := List.forall_mem_cons.1 hmid
    have hmove : es ++ e :: mid = es ++ [e] ++ mid := by simp
    rw [hmove]
    cases e with
    | cmd len => simp [wellNested] at hnested
    | reset | status word => simp [Event.endsCall] at hend
    | byte b =>
      obtain ⟨htail, hcmd⟩ := ih (es := es ++ [.byte b]) hrest (by simpa [wellNested] using hnested)
      exact ⟨by rw [htail, callTail_snoc]; simp [tailStep], by rw [hcmd, lastCmd_snoc_byte]⟩
    | char c =>
      obtain ⟨htail, hcmd⟩ := ih (es := es ++ [.char c]) hrest (by simpa [wellNested] using hnested)
      exact ⟨by rw [htail, callTail_snoc]; simp [tailStep], by rw [hcmd, lastCmd_snoc_char]⟩

theorem callTail_snoc_cmd (es : List Event) (len : Nat) : callTail (es ++ [.cmd len]) = [] := by
  rw [callTail_snoc]
  rfl

/-- A call that has been reported was reported from a state in REPORT that meets the call invariant and holds the
call's length, its events and its status word. -/
theorem run_call_ends {n : Nat} {s t : State} {len : Nat} {mid : List Event} {word : Status} (hs : CallInv s)
    (hp : s.phase = .idle) (h : runSteps n s = .next t)
    (hevents : t.events = s.events ++ (.cmd len :: (mid ++ [.status word])))
    (hmid : ∀ e ∈ mid, e.endsCall = false) :
    ∃ u : State, CallInv u ∧ u.phase = .report ∧ u.lenW = s.lenW ∧ u.len.toNat = len ∧
      callTail u.events = mid ∧ u.status? = some word := by
  obtain ⟨m, u, hrun, hu, hrecorded⟩ := run_records_last (es := .cmd len :: mid) h hevents
  obtain ⟨hop, hword⟩ := State.recorded_eq_status hrecorded
  have hphase : u.phase = .report := selectedOp_eq_report hop
  have hinv : CallInv u := run_keeps stepKeepsTheCallInvariant hs hrun
  obtain ⟨es, hes, hnested⟩ := run_wellNested hs hrun
  obtain rfl : es = .cmd len :: mid := List.append_cancel_left (hes.symm.trans hu)
  have hopen : wellNested true mid = true := by
    rw [hs.isOpen, hp] at hnested
    simpa [wellNested] using hnested
  obtain ⟨htail, hcmd⟩ := callTail_of_wellNested (es := s.events ++ [.cmd len]) hmid hopen
  have hmove : u.events = s.events ++ [.cmd len] ++ mid := by simp [hu]
  rw [← hmove] at htail hcmd
  refine ⟨u, hinv, hphase, run_lenW hrun, ?_, by rw [htail, callTail_snoc_cmd]; rfl, hword⟩
  rw [hinv.length (by simp [hphase]), lastCmd_snoc_cmd] at hcmd
  exact Option.some.inj hcmd

/-! ### The result of a call -/

section
variable {s : State} (h : CallInv s) (hp : s.phase = .report)
include h hp

/-- In REPORT the call's events are those of the whole groups of the bytes it took (R73, R220). -/
theorem CallInv.report_callTail :
    callTail s.events = groupEvents (callBytes s.events) ∧ (callBytes s.events).length = s.pos.toNat := by
  have hcall := h.toInCall (by simp [hp])
  obtain ⟨htail, -⟩ := State.expectedTail_of_groupStart (s := s) (by simp [hp])
    (hcall.count.trans (State.groupStart_report hp).symm)
  exact ⟨hcall.history.trans htail, hcall.count⟩

/-- A failed call has taken nothing and sent nothing (R164). -/
theorem CallInv.report_failure (herr : s.err ≠ .ok) : callTail s.events = [] := by
  obtain ⟨htail, hcount⟩ := h.report_callTail hp
  obtain ⟨hpos, -⟩ := h.failure hp herr
  rw [htail, List.eq_nil_of_length_eq_zero (hcount.trans hpos)]
  rfl

end

/-- The status word of a call of length `len` at LEN_W = `w` (R95, R160). -/
def Status.ofCall (w len : Nat) : Status :=
  if Config.lenLimit w < len then .tooLong
  else if len % 4 ≠ 0 then .invalidLength
  else .ofLength (len + len / 4)

/-- The word held in REPORT depends on the call's length alone. -/
theorem CallInv.status?_eq_ofCall {s : State} (h : CallInv s) (hp : s.phase = .report) :
    s.status? = some (Status.ofCall s.lenW s.len.toNat) := by
  unfold Status.ofCall
  split_ifs with hlong h4
  · exact h.status?_tooLong hp hlong
  · exact h.status?_invalidLength hp (Nat.le_of_not_lt hlong) h4
  · exact h.status?_ok hp (Nat.le_of_not_lt hlong) (not_not.1 h4)

/-- Settles O39: the state in which the call ends holds its length, its events and its word, and the call invariant
says what they are. -/
theorem callComputesTheTransform : Obligations.CallComputesTheTransform := by
  unfold Obligations.CallComputesTheTransform
  intro n s t len mid word hs hidle hrun hevents hmid
  obtain ⟨u, hu, hp, hlenW, rfl, rfl, hword⟩ := run_call_ends hs hidle hrun hevents hmid
  have hverdict := hu.err_eq_lengthCheck hp
  rw [← hlenW]
  refine ⟨fun hlong => ?_, fun hle h4 => ?_, fun hle h4 => ?_⟩
  · have herr : u.err = .tooLong := hverdict.trans ((lengthCheck_eq_tooLong _).2 hlong)
    obtain rfl : Status.tooLong = word := Option.some.inj ((hu.status?_tooLong hp hlong).symm.trans hword)
    exact ⟨hu.report_failure hp (by simp [herr]), rfl, rfl, rfl⟩
  · have herr : u.err = .invalidLength := hverdict.trans ((lengthCheck_eq_invalidLength _).2 ⟨hle, h4⟩)
    obtain rfl : Status.invalidLength = word := Option.some.inj ((hu.status?_invalidLength hp hle h4).symm.trans hword)
    exact ⟨hu.report_failure hp (by simp [herr]), rfl, rfl, rfl⟩
  · have herr : u.err = .ok := hverdict.trans ((lengthCheck_eq_ok _).2 ⟨hle, h4⟩)
    obtain ⟨htail, hcount⟩ := hu.report_callTail hp
    obtain ⟨hpos, -⟩ := hu.success hp herr
    have hlength : (callBytes u.events).length = u.len.toNat := hcount.trans hpos
    have hchars : charsOf (callTail u.events) = encGroups (callBytes u.events) := by
      rw [htail, charsOf_groupEvents]
    obtain rfl : Status.ofLength _ = word := Option.some.inj ((hu.status?_ok hp hle h4).symm.trans hword)
    refine ⟨hlength, ?_, ?_, htail, by simp, by simp, by simp⟩
    · rw [hchars]
      exact encodeBytes_ok _ _ (hlength ▸ hle) (hlength ▸ h4)
    · rw [hchars, encGroups_length _ (hlength ▸ h4), hlength]
      omega

/-- Settles O40: the bytes of a call decide its events, and its length decides its word. -/
theorem callResultIgnoresHistoryAndSchedule : Obligations.CallResultIgnoresHistoryAndSchedule := by
  unfold Obligations.CallResultIgnoresHistoryAndSchedule
  intro n1 n2 s1 s2 t1 t2 len mid1 mid2 word1 word2 hlenW hs1 hi1 hr1 he1 hm1 hs2 hi2 hr2 he2 hm2 hbytes
  obtain ⟨u1, hu1, hp1, hw1, hl1, rfl, hword1⟩ := run_call_ends hs1 hi1 hr1 he1 hm1
  obtain ⟨u2, hu2, hp2, hw2, hl2, rfl, hword2⟩ := run_call_ends hs2 hi2 hr2 he2 hm2
  obtain ⟨htail1, -⟩ := hu1.report_callTail hp1
  obtain ⟨htail2, -⟩ := hu2.report_callTail hp2
  rw [hu1.status?_eq_ofCall hp1, hl1, hw1, hlenW] at hword1
  rw [hu2.status?_eq_ofCall hp2, hl2, hw2] at hword2
  constructor
  · rw [htail1, htail2]
    exact congrArg groupEvents hbytes
  · exact Option.some.inj (hword1.symm.trans hword2)

end Sys2Proof.Machine
end

/-! RESET (70_reset_and_hazards.md R260 to R262). -/
section
namespace Sys2Proof.Machine

/-- Settles O8: the reset values written out, and `rst` selects RESET before anything else. -/
theorem resetWritesEveryRegister : Obligations.ResetWritesEveryRegister := by
  unfold Obligations.ResetWritesEveryRegister
  exact ⟨fun _ => rfl, fun _ => step_reset⟩

/-- Settles O9: RESET writes every register, so nothing of them is left, and the state it leaves is an idle one. -/
theorem resetReadsNoRegister : Obligations.ResetReadsNoRegister := by
  unfold Obligations.ResetReadsNoRegister
  refine ⟨by decide, resetStateMeetsTheCallInvariant, fun _ _ _ _ _ _ _ _ _ _ => rfl, fun s hwidth => ?_⟩
  exact ⟨_, rfl, CallInv.of_resetRegisters hwidth⟩

/-- A written line with `rst = 1` leaves the reset values (R260). -/
theorem step_reset_line {s : State} {p : Pins} {ps : List Pins} (ht : s.trace = p :: ps) (hr : p.rst = true) :
    step s = .next ({ s with trace := ps }.resetRegisters.record .reset) := by
  rw [step_reset_eq (by rw [State.line_cons ht, hr]), State.advance_cons ht]

/-- RESETs in the reset state add their events and change nothing else. -/
theorem run_resets {s : State} {lines rest : List Pins} (hr : ∀ p ∈ lines, p.rst = true) :
    runSteps lines.length { s with trace := lines ++ rest }.resetRegisters =
      .next { s with
        events := s.events ++ List.replicate lines.length Event.reset, trace := rest }.resetRegisters := by
  induction lines generalizing s with
  | nil => simp [run_zero]
  | cons p lines ih =>
    obtain ⟨hp, hlines⟩ := List.forall_mem_cons.1 hr
    have hstep := step_reset_line (s := { s with trace := (p :: lines) ++ rest }.resetRegisters) rfl hp
    refine (run_succ hstep).trans ((ih (s := s.record .reset) hlines).trans ?_)
    simp [List.replicate_succ]

/-- An idle block with `rst = 0` takes a command or waits for one (R166). -/
theorem selectedOp_idle (w : Nat) {p : Pins} (hr : p.rst = false) :
    selectedOp w .idle p = .waitCmd ∨ ∃ cmdLen, selectedOp w .idle p = .accept cmdLen := by
  cases hv : p.cmdValid <;> simp [selectedOp, hr, hv]

/-- Settles O10: the first RESET leaves the reset values, the others keep them; and an idle block with `rst = 0` selects
by `cmd_valid`. -/
theorem heldResetLeavesTheResetState : Obligations.HeldResetLeavesTheResetState := by
  unfold Obligations.HeldResetLeavesTheResetState
  refine ⟨fun s lines rest hne hr ht => ?_, fun s t h hr => ?_⟩
  · obtain ⟨p, lines, rfl⟩ := List.exists_cons_of_ne_nil hne
    obtain ⟨hp, hlines⟩ := List.forall_mem_cons.1 hr
    have hevents (n : Nat) : s.events ++ [Event.reset] ++ List.replicate n .reset =
        s.events ++ List.replicate (n + 1) .reset := by simp [List.replicate_succ]
    refine (run_succ (step_reset_line ht hp)).trans ((run_resets (s := s.record .reset) hlines).trans ?_)
    simp only [State.record_events, hevents]
    rfl
  · cases h
    rw [State.inWord, decode_sampleWord]
    simpa only [DecodeResult.instr.injEq, State.record_phase, State.resetRegisters_phase] using selectedOp_idle _ hr

end Sys2Proof.Machine
end

/-! The work a call still owes, and its end under a fair environment (46_sequencing.md R212, R213). -/
section
namespace Sys2Proof.Machine

/-! ### The work in each phase -/

theorem State.work_assemble {s : State} (hp : s.phase = .assemble) : s.work = (4 - s.pos.toNat % 4) + 5 + 5
    + 14 * ((s.len.toNat - 4 * (s.pos.toNat / 4) - 4) / 4) + 1 := by
  simp only [State.work, hp]

theorem State.work_convert {s : State} (hp : s.phase = .convert) :
    s.work = (s.slot.val + 1) + 5 + 14 * ((s.len.toNat - s.pos.toNat) / 4) + 1 := by
  simp only [State.work, hp]

theorem State.work_emit {s : State} (hp : s.phase = .emit) :
    s.work = (5 - s.slot.val) + 14 * ((s.len.toNat - s.pos.toNat) / 4) + 1 := by
  simp only [State.work, hp]

theorem State.work_report {s : State} (hp : s.phase = .report) : s.work = 1 := by
  simp only [State.work, hp]

theorem State.work_idle {s : State} (hp : s.phase = .idle) : s.work = 0 := by
  simp only [State.work, hp]

@[simp] theorem State.advance_work (s : State) : s.advance.work = s.work := rfl

theorem State.work_pos {s : State} (hp : s.phase ≠ .idle) : 0 < s.work := by
  cases h : s.phase with
  | idle => exact absurd h hp
  | assemble => rw [State.work_assemble h]; exact Nat.succ_pos _
  | convert => rw [State.work_convert h]; exact Nat.succ_pos _
  | emit => rw [State.work_emit h]; exact Nat.succ_pos _
  | report => rw [State.work_report h]; exact Nat.one_pos

/-! ### Each operation of a call is one less to do -/

theorem execDivstep_work {s : State} (hp : s.phase = .convert) :
    ∃ t, execDivstep s = .next t ∧ t.work + 1 = s.work := by
  rw [State.work_convert hp]
  by_cases hlast : s.slot.val = 0
  · refine ⟨_, execDivstep_last hlast, ?_⟩
    rw [State.work_emit rfl]
    dsimp only
    omega
  · refine ⟨_, execDivstep_inside hlast, ?_⟩
    refine (congrArg Nat.succ (State.work_convert ?_)).trans ?_
    · exact hp
    · dsimp only
      omega

section
variable {s : State} (h : RegInv s)
include h

theorem RegInv.execShiftin_work (hp : s.phase = .assemble) (b : Byte) :
    ∃ t, execShiftin b s = .next t ∧ t.work + 1 = s.work := by
  have hpos := h.pos_succ hp
  rw [State.work_assemble hp]
  by_cases hlast : (s.pos + 1#s.lenW).toNat % 4 = 0
  · refine ⟨_, execShiftin_last hlast, ?_⟩
    have hslot : (4 : Fin 5).val = 4 := rfl
    rw [State.work_convert rfl]
    dsimp only
    omega
  · refine ⟨_, execShiftin_inside hlast, ?_⟩
    refine (congrArg Nat.succ (State.work_assemble ?_)).trans ?_
    · exact hp
    · dsimp only
      omega

theorem RegInv.execEmit_work (hp : s.phase = .emit) :
    ∃ t, execEmit s = .next t ∧ t.work + 1 = s.work := by
  have hbusy := h.toBusy (.inr (.inr hp))
  have hle := hbusy.pos_le
  have hlen := hbusy.len_aligned
  obtain ⟨h4, -⟩ := h.wholeGroups (.inr hp)
  rw [State.work_emit hp]
  by_cases hlast : s.slot.val = 4
  · refine ⟨_, execEmit_last hlast, ?_⟩
    by_cases hend : s.pos = s.len
    · rw [State.work_report (if_pos hend), hend, hlast]
      omega
    · have hlt : s.pos.toNat < s.len.toNat := lt_of_le_of_ne hle (BitVec.toNat_inj.not.2 hend)
      rw [State.work_assemble (if_neg hend)]
      dsimp only
      omega
  · refine ⟨_, execEmit_inside hlast, ?_⟩
    refine (congrArg Nat.succ (State.work_emit ?_)).trans ?_
    · exact hp
    · dsimp only
      omega

theorem RegInv.execReport_work (hp : s.phase = .report) :
    ∃ t, execReport s = .next t ∧ t.work + 1 = s.work := by
  refine ⟨_, execReport_some (h.status?_eq hp), ?_⟩
  rw [State.work_report hp, State.work_idle rfl]

/-- With the pin its phase looks at at 1, a step performs the phase's operation. -/
theorem RegInv.step_work (hi : s.phase ≠ .idle) (hr : s.line.rst = false)
    (hprogress : progresses s.phase s.line = true) : ∃ t, step s = .next t ∧ t.work + 1 = s.work := by
  have ha := h.advance
  cases hp : s.phase with
  | idle => exact absurd hp hi
  | assemble =>
    rw [step_assemble hr hp, if_pos (by simpa [progresses, hp] using hprogress)]
    exact ha.execShiftin_work hp _
  | convert =>
    rw [step_convert hr hp]
    exact execDivstep_work (s := s.advance) hp
  | emit =>
    rw [step_emit hr hp, if_pos (by simpa [progresses, hp] using hprogress)]
    exact ha.execEmit_work hp
  | report =>
    rw [step_report hr hp, if_pos (by simpa [progresses, hp] using hprogress)]
    exact ha.execReport_work hp

end

/-- Settles O44: the phase's pin decides between its operation, one less to do, and its WAIT. -/
theorem eachStepWaitsOrDoesOneOperationOfTheCall : Obligations.EachStepWaitsOrDoesOneOperationOfTheCall := by
  unfold Obligations.EachStepWaitsOrDoesOneOperationOfTheCall
  intro s h hi hr
  cases hprogress : progresses s.phase s.line with
  | true =>
    obtain ⟨t, hstep, hwork⟩ := h.step_work hi hr hprogress
    exact ⟨t, hstep, fun _ => hwork, fun hno => absurd hno (by simp)⟩
  | false => exact ⟨_, step_wait hr hprogress, fun hno => absurd hno (by simp), fun _ => rfl⟩

/-- A step with `rst = 0` inside a call lowers the work by what the progress count counts it for. -/
theorem RegInv.step_work_progressSteps {s : State} {n : Nat} (h : RegInv s) (hi : s.phase ≠ .idle)
    (hfree : resetFree (n + 1) s) (hwork : s.work ≤ progressSteps (n + 1) s) :
    ∃ t, step s = .next t ∧ resetFree n t ∧ t.work ≤ progressSteps n t := by
  obtain ⟨hr, hlater⟩ := hfree
  obtain ⟨t, hstep, hdone, hwait⟩ := eachStepWaitsOrDoesOneOperationOfTheCall s h hi hr
  rw [hstep] at hlater
  rw [progressSteps, hstep] at hwork
  refine ⟨t, hstep, hlater, ?_⟩
  cases hprogress : progresses s.phase s.line with
  | true =>
    have hless := hdone hprogress
    rw [if_pos hprogress] at hwork
    dsimp only at hwork
    omega
  | false =>
    obtain rfl := hwait hprogress
    simpa [hprogress] using hwork

/-- Settles O45: by induction on the number of steps; while the block is not in IDLE it owes work, and the environment
has still as many steps to let it progress in. -/
theorem fairEnvironmentEndsTheCall : Obligations.FairEnvironmentEndsTheCall := by
  unfold Obligations.FairEnvironmentEndsTheCall
  intro n
  induction n with
  | zero =>
    intro s _ hi _ hwork
    exact absurd hwork (Nat.not_le_of_lt (State.work_pos hi))
  | succ n ih =>
    intro s h hi hfree hwork
    obtain ⟨t, hstep, hfree', hwork'⟩ := h.step_work_progressSteps hi hfree hwork
    by_cases hidle : t.phase = .idle
    · exact ⟨1, t, by omega, run_succ hstep, hidle⟩
    · obtain ⟨m, u, hm, hrun, hu⟩ := ih t (stepKeepsTheRegisterInvariant s t h hstep) hidle hfree' hwork'
      exact ⟨m + 1, u, by omega, (run_succ hstep).trans hrun, hu⟩

end Sys2Proof.Machine
end

/-! The characters of a group sent from EMIT (44_emit.md R190 to R193). -/
section
namespace Sys2Proof.Machine

theorem obuf_toList (v : Vector Byte 5) : v.toList = [v[0], v[1], v[2], v[3], v[4]] := by
  apply List.ext_getElem
  · simp
  · intro i hi _
    have hlt : i < 5 := by simpa using hi
    interval_cases i <;> rfl

/-- In EMIT, a written line that takes the character is an EMIT (R190). -/
theorem step_take {s : State} {p : Pins} {ps : List Pins} (ht : s.trace = p :: ps) (hp : s.phase = .emit)
    (hr : p.rst = false) (hv : p.outReady = true) : step s = execEmit { s with trace := ps } := by
  rw [← State.line_cons ht] at hr hv
  rw [step_emit hr hp, if_pos hv, State.advance_cons ht]

/-- The characters before slot 4 are sent in order, one for each line that takes one, whatever waits lie between. -/
theorem run_emits {lines rest : List Pins} {s : State} {slot : Fin 5} (hp : s.phase = .emit)
    (hr : ∀ p ∈ lines, p.rst = false) (hslot : slot.val = s.slot.val + lines.countP Pins.outReady)
    (ht : s.trace = lines ++ rest) :
    runSteps lines.length s = .next { s with
      slot := slot
      events := s.events ++ ((s.obuf.toList.drop s.slot.val).take (lines.countP Pins.outReady)).map .char
      trace := rest } := by
  induction lines generalizing s with
  | nil =>
    obtain rfl : s.trace = rest := ht
    obtain rfl : slot = s.slot := Fin.ext hslot
    simp [run_zero]
  | cons p lines ih =>
    obtain ⟨hrp, hrest⟩ := List.forall_mem_cons.1 hr
    cases hv : p.outReady with
    | false =>
      rw [List.countP_cons_of_neg (by simp [hv])] at hslot ⊢
      have hwait : progresses s.phase s.line = false := by rw [State.line_cons ht, hp]; exact hv
      have hstep := (step_wait (by rw [State.line_cons ht, hrp]) hwait).trans (congrArg _ (State.advance_cons ht))
      exact (run_succ hstep).trans (ih (s := { s with trace := lines ++ rest }) hp hrest hslot rfl)
    | true =>
      rw [List.countP_cons_of_pos hv] at hslot ⊢
      have hbelow : s.slot.val < s.obuf.toList.length := by simp
      have hinside : s.slot.val ≠ 4 := by omega
      have hstep := (step_take ht hp hrp hv).trans (execEmit_inside (s := { s with trace := lines ++ rest }) hinside)
      refine (run_succ hstep).trans ((ih ?_ hrest ?_ rfl).trans ?_)
      · exact hp
      · dsimp only
        omega
      rw [List.drop_eq_getElem_cons hbelow, List.take_succ_cons]
      simp

/-- Settles O23: four characters before slot 4, and the EMIT of slot 4 with the end-of-source test. -/
theorem emitSendsTheBufferOnceInOrder : Obligations.EmitSendsTheBufferOnceInOrder := by
  unfold Obligations.EmitSendsTheBufferOnceInOrder
  intro s lines rest last hp h0 hr hfour hlr hlv ht
  have hcount : lines.countP Pins.outReady = 4 := List.countP_eq_length_filter.trans hfour
  have hrun := run_emits (slot := 4) (rest := last :: rest) hp hr (by rw [hcount, h0]; rfl) ht
  rw [hcount, h0, obuf_toList] at hrun
  refine (run_add hrun).trans ((run_succ ((step_take rfl ?_ hlr hlv).trans (execEmit_last rfl))).trans ?_)
  · exact hp
  · simp [run_zero]

end Sys2Proof.Machine
end

/-! Whole calls driven line by line: ENCODE and GREEDY (30_encoding.md R106, 46_sequencing.md R212). Both are lines of
one shape, `CallLines`, and the run of every such list of lines ends in one state, `State.afterCall`. -/
section
namespace Sys2Proof.Machine

/-! ### Lines that never wait -/

/-- The line offers the byte (R105). -/
structure LineOffers (p : Pins) (b : Byte) : Prop where
  rst : p.rst = false
  valid : p.inValid = true
  data : p.inData = b

/-- The line takes the character on offer (R105). -/
structure LineTakes (p : Pins) : Prop where
  rst : p.rst = false
  ready : p.outReady = true

/-- Fourteen lines that drive one group through the pipeline without a wait. -/
inductive GroupLines (b0 b1 b2 b3 : Byte) : List Pins → Prop where
  | intro {p0 p1 p2 p3 last : Pins} {free taking : List Pins} (h0 : LineOffers p0 b0) (h1 : LineOffers p1 b1)
      (h2 : LineOffers p2 b2) (h3 : LineOffers p3 b3) (hfree : free.length = 5) (hrst : ∀ p ∈ free, p.rst = false)
      (htaking : taking.length = 4) (htakes : ∀ p ∈ taking, LineTakes p) (hlast : LineTakes last) :
      GroupLines b0 b1 b2 b3 ([p0, p1, p2, p3] ++ (free ++ (taking ++ [last])))

/-- Lines that drive the groups of a source one after the other. -/
inductive SourceLines : List Byte → List Pins → Prop where
  | nil : SourceLines [] []
  | group {b0 b1 b2 b3 : Byte} {source : List Byte} {lines more : List Pins} (hgroup : GroupLines b0 b1 b2 b3 lines)
      (hmore : SourceLines source more) : SourceLines (b0 :: b1 :: b2 :: b3 :: source) (lines ++ more)

/-- Lines that drive one whole call: its command, its groups, and the line that takes its status. -/
inductive CallLines (source : List Byte) : List Pins → Prop where
  | intro {command last : Pins} {lines : List Pins} (hrst : command.rst = false) (hvalid : command.cmdValid = true)
      (hlen : command.cmdLen = source.length) (hlines : SourceLines source lines) (hlastRst : last.rst = false)
      (hready : last.stReady = true) : CallLines source (command :: (lines ++ [last]))

theorem GroupLines.length {b0 b1 b2 b3 : Byte} {lines : List Pins} (h : GroupLines b0 b1 b2 b3 lines) :
    lines.length = 14 := by
  obtain ⟨-, -, -, -, hfree, -, htaking, -, -⟩ := h
  simp [hfree, htaking]

theorem SourceLines.length {source : List Byte} {lines : List Pins} (h : SourceLines source lines) :
    lines.length = 14 * (source.length / 4) := by
  induction h with
  | nil => rfl
  | group hgroup _ ih =>
    rw [List.length_append, hgroup.length, ih]
    simp only [List.length_cons]
    omega

theorem CallLines.length {source : List Byte} {lines : List Pins} (h : CallLines source lines) :
    lines.length = 2 + 14 * (source.length / 4) := by
  obtain ⟨-, -, -, hlines, -, -⟩ := h
  simp only [List.length_cons, List.length_append, List.length_nil, hlines.length]
  omega

/-! ### One group -/

/-- In ASSEMBLE, a written line that offers a byte is a SHIFTIN of it (R170). -/
theorem step_offer {s : State} {p : Pins} {b : Byte} {ps : List Pins} (ho : LineOffers p b) (ht : s.trace = p :: ps)
    (hp : s.phase = .assemble) : step s = execShiftin b { s with trace := ps } := by
  obtain ⟨hr, hv, rfl⟩ := ho
  rw [← State.line_cons ht] at hr hv
  rw [step_assemble hr hp, if_pos hv, State.line_cons ht, State.advance_cons ht]

/-- The state after some bytes of a group, `s` before the first of them, with the lines `rest` still to come (R170). -/
def State.afterBytes (s : State) (bytes : List Byte) (rest : List Pins) : State :=
  { s with
    acc := bytes.foldl shiftByte s.acc
    pos := s.pos + BitVec.ofNat s.lenW bytes.length
    events := s.events ++ bytes.map .byte
    trace := rest }

theorem State.afterBytes_nil {s : State} {rest : List Pins} (ht : s.trace = rest) : s.afterBytes [] rest = s := by
  subst ht
  simp [State.afterBytes]

theorem bitVec_add_ofNat_add_one {w : Nat} (x : BitVec w) (k : Nat) :
    x + BitVec.ofNat w k + 1#w = x + BitVec.ofNat w (k + 1) := by
  rw [BitVec.add_assoc, ← BitVec.ofNat_add]

theorem State.afterBytes_snoc (s : State) (bytes : List Byte) (b : Byte) (rest : List Pins) :
    s.afterBytes (bytes ++ [b]) rest = { s with
      acc := shiftByte (bytes.foldl shiftByte s.acc) b
      pos := s.pos + BitVec.ofNat s.lenW bytes.length + 1#s.lenW
      events := s.events ++ bytes.map .byte ++ [.byte b]
      trace := rest } := by
  simp [State.afterBytes, bitVec_add_ofNat_add_one]

section
variable {s : State} (hp : s.phase = .assemble) (h4 : s.pos.toNat % 4 = 0) (hroom : s.pos.toNat + 4 < 2 ^ s.lenW)
  {bytes : List Byte} {p : Pins} {b : Byte} (ho : LineOffers p b) (rest : List Pins)
include hp h4 hroom ho

theorem State.step_afterBytes_inside (hlen : bytes.length < 3) :
    step (s.afterBytes bytes (p :: rest)) = .next (s.afterBytes (bytes ++ [b]) rest) := by
  have hinside : (s.pos + BitVec.ofNat s.lenW bytes.length + 1#s.lenW).toNat % 4 ≠ 0 := by
    rw [bitVec_add_ofNat_add_one, toNat_add_of_lt _ _ (by omega)]
    omega
  refine (step_offer (s := s.afterBytes bytes (p :: rest)) ho rfl hp).trans
    ((execShiftin_inside (s := s.afterBytes bytes rest) hinside).trans ?_)
  rw [State.afterBytes_snoc]
  rfl

theorem State.step_afterBytes_last (hlen : bytes.length = 3) :
    step (s.afterBytes bytes (p :: rest)) =
      .next { s.afterBytes (bytes ++ [b]) rest with phase := .convert, slot := 4 } := by
  have hlast : (s.pos + BitVec.ofNat s.lenW bytes.length + 1#s.lenW).toNat % 4 = 0 := by
    rw [bitVec_add_ofNat_add_one, toNat_add_of_lt _ _ (by omega)]
    omega
  refine (step_offer (s := s.afterBytes bytes (p :: rest)) ho rfl hp).trans
    ((execShiftin_last (s := s.afterBytes bytes rest) hlast).trans ?_)
  rw [State.afterBytes_snoc]
  rfl

end

/-- Four lines that offer the bytes of a group, whatever their other pins are (R171). -/
theorem run_offers {s : State} {p0 p1 p2 p3 : Pins} {b0 b1 b2 b3 : Byte} {rest : List Pins} (h0 : LineOffers p0 b0)
    (h1 : LineOffers p1 b1) (h2 : LineOffers p2 b2) (h3 : LineOffers p3 b3) (hp : s.phase = .assemble)
    (h4 : s.pos.toNat % 4 = 0) (hroom : s.pos.toNat + 4 < 2 ^ s.lenW)
    (ht : s.trace = p0 :: p1 :: p2 :: p3 :: rest) :
    runSteps 4 s = .next { s with
      acc := groupWord b0 b1 b2 b3, pos := s.pos + 4#s.lenW, phase := .convert, slot := 4,
      events := s.events ++ [.byte b0, .byte b1, .byte b2, .byte b3], trace := rest } := by
  have hfirst := State.step_afterBytes_inside hp h4 hroom h0 (p1 :: p2 :: p3 :: rest) (bytes := []) (by decide)
  rw [State.afterBytes_nil ht] at hfirst
  refine (run_succ hfirst).trans ?_
  refine (run_succ (State.step_afterBytes_inside hp h4 hroom h1 _ (by simp))).trans ?_
  refine (run_succ (State.step_afterBytes_inside hp h4 hroom h2 _ (by simp))).trans ?_
  refine (run_succ (State.step_afterBytes_last hp h4 hroom h3 _ (by simp))).trans ?_
  simp [run_zero, State.afterBytes, shiftByte_four]

/-- The buffer with the characters of a group. -/
def groupBuf (b0 b1 b2 b3 : Byte) : Vector Byte 5 :=
  Vector.ofFn fun k => alpha (digitAt (groupVal b0 b1 b2 b3) k)

theorem groupBuf_toList (b0 b1 b2 b3 : Byte) : (groupBuf b0 b1 b2 b3).toList = encGroup b0 b1 b2 b3 := by
  rw [groupBuf, Vector.toList_ofFn, List.ofFn_eq_map, encGroup_eq]

/-- Five lines with `rst = 0` convert the value in hand (R181). -/
theorem run_free {s : State} {free rest : List Pins} (hp : s.phase = .convert) (hslot : s.slot = 4)
    (hfree : free.length = 5) (hrst : ∀ p ∈ free, p.rst = false) (ht : s.trace = free ++ rest) :
    runSteps 5 s = .next { s with
      phase := .emit, slot := 0, acc := 0#32,
      obuf := Vector.ofFn fun k => alpha (digitAt s.acc.toNat k), trace := rest } := by
  obtain ⟨hrun, -⟩ := fiveDivstepsFillTheBuffer s free rest hp hslot hfree hrst ht
  exact hrun

/-- Five lines that take send the buffer (R193). -/
theorem run_takes {s : State} {taking rest : List Pins} {last : Pins} (hp : s.phase = .emit) (hslot : s.slot = 0)
    (htaking : taking.length = 4) (htakes : ∀ p ∈ taking, LineTakes p) (hlast : LineTakes last)
    (ht : s.trace = taking ++ last :: rest) :
    runSteps 5 s = .next { s with
      phase := if s.pos = s.len then .report else .assemble, slot := 4, trace := rest
      events := s.events ++ s.obuf.toList.map .char } := by
  have hready : (taking.filter fun p => p.outReady).length = 4 := by
    rw [List.filter_eq_self.2 fun p hp => (htakes p hp).ready, htaking]
  have hrun := emitSendsTheBufferOnceInOrder s taking rest last hp hslot (fun p hp => (htakes p hp).rst) hready
    hlast.rst hlast.ready ht
  rw [htaking] at hrun
  rw [hrun, obuf_toList]
  rfl

/-- One group, from ASSEMBLE to the end-of-source test. -/
theorem run_group {s : State} {b0 b1 b2 b3 : Byte} {lines rest : List Pins} (h : GroupLines b0 b1 b2 b3 lines)
    (hp : s.phase = .assemble) (h4 : s.pos.toNat % 4 = 0) (hroom : s.pos.toNat + 4 < 2 ^ s.lenW)
    (ht : s.trace = lines ++ rest) :
    runSteps lines.length s = .next { s with
      phase := if s.pos + 4#s.lenW = s.len then .report else .assemble
      pos := s.pos + 4#s.lenW, acc := 0#32, slot := 4, obuf := groupBuf b0 b1 b2 b3
      events := s.events ++ groupEvents [b0, b1, b2, b3], trace := rest } := by
  rw [h.length]
  obtain @⟨p0, p1, p2, p3, last, free, taking, h0, h1, h2, h3, hfree, hrst, htaking, htakes, hlast⟩ := h
  have hbytes := run_offers (rest := free ++ (taking ++ last :: rest)) h0 h1 h2 h3 hp h4 hroom (by simpa using ht)
  refine (run_add (n := 5 + 5) hbytes).trans
    ((run_add (n := 5) (run_free (rest := taking ++ last :: rest) ?_ ?_ hfree hrst ?_)).trans
      ((run_takes (rest := rest) ?_ ?_ htaking htakes hlast ?_).trans ?_))
  · rfl
  · rfl
  · rfl
  · rfl
  · rfl
  · rfl
  · simp [groupWord_toNat, groupEvents, ← groupBuf_toList, groupBuf]

/-! ### The groups of a source -/

/-- The buffer after the groups of a source: the characters of its last group (R26). -/
def lastGroupBuf (buf : Vector Byte 5) : List Byte → Vector Byte 5
  | b0 :: b1 :: b2 :: b3 :: source => lastGroupBuf (groupBuf b0 b1 b2 b3) source
  | [] | [_] | [_, _] | [_, _, _] => buf

theorem lastGroupBuf_toList (buf : Vector Byte 5) : ∀ source : List Byte, source.length % 4 = 0 → source ≠ [] →
    (lastGroupBuf buf source).toList = encGroups (source.drop (source.length - 4))
  | [], _, hne => absurd rfl hne
  | [_], h4, _ | [_, _], h4, _ | [_, _, _], h4, _ => by simp at h4
  | [b0, b1, b2, b3], _, _ => by simp [lastGroupBuf, groupBuf_toList, encGroups]
  | b0 :: b1 :: b2 :: b3 :: b4 :: source, h4, _ => by
    have hlast := lastGroupBuf_toList (groupBuf b0 b1 b2 b3) (b4 :: source)
      (by simp only [List.length_cons] at h4 ⊢; omega) (by simp)
    rw [lastGroupBuf, hlast]
    simp only [List.length_cons] at h4 ⊢
    rw [show source.length + 1 + 1 + 1 + 1 + 1 - 4 = source.length + 1 - 4 + 4 by omega]
    rfl

/-- The groups of the rest of a source, from between two groups to REPORT. -/
theorem run_source {source : List Byte} {lines rest : List Pins} (h : SourceLines source lines) {s : State}
    (hp : s.phase = if s.pos = s.len then .report else .assemble) (h4 : s.pos.toNat % 4 = 0)
    (hlen : s.pos.toNat + source.length = s.len.toNat) (hacc : s.acc = 0#32) (hslot : s.slot = 4)
    (ht : s.trace = lines ++ rest) :
    runSteps lines.length s = .next { s with
      phase := .report, pos := s.len, obuf := lastGroupBuf s.obuf source
      events := s.events ++ groupEvents source, trace := rest } := by
  induction h generalizing s with
  | nil =>
    obtain rfl : s.trace = rest := ht
    have hend : s.pos = s.len := BitVec.eq_of_toNat_eq hlen
    have hreport : s.phase = .report := hp.trans (if_pos hend)
    cases s
    simp_all [run_zero, lastGroupBuf, groupEvents]
  | @group b0 b1 b2 b3 source lines more hgroup _ ih =>
    simp only [List.length_cons] at hlen
    have hlt := s.len.isLt
    have hpos : (s.pos + 4#s.lenW).toNat = s.pos.toNat + 4 := toNat_add_of_lt s.pos 4 (by omega)
    have hassemble : s.phase = .assemble := hp.trans (if_neg fun hend => by rw [hend] at hlen; omega)
    have hrun := run_group (rest := more ++ rest) hgroup hassemble h4 (by omega) (by rw [ht, List.append_assoc])
    rw [List.length_append]
    refine (run_add hrun).trans ((ih ?_ ?_ ?_ ?_ ?_ ?_).trans ?_)
    · rfl
    · dsimp only
      omega
    · dsimp only
      omega
    · rfl
    · rfl
    · rfl
    · simp [lastGroupBuf, groupEvents, hacc, hslot]

/-! ### The whole call -/

/-- The state after a whole call on a valid source. -/
def State.afterCall (s : State) (source : List Byte) (rest : List Pins) : State :=
  { s with
    phase := .idle
    len := BitVec.ofNat s.lenW source.length
    pos := BitVec.ofNat s.lenW source.length
    acc := 0#32
    slot := 4
    obuf := lastGroupBuf s.obuf source
    err := .ok
    errparam := .zero
    olen := resultLength (BitVec.ofNat s.lenW source.length)
    events := s.events ++ (.cmd source.length ::
      (groupEvents source ++ [.status (Status.ofLength (source.length + source.length / 4))]))
    trace := rest }

/-- A length within LEN_LIMIT fits the LEN_W pins. -/
theorem ofNat_toNat_of_le_lenLimit {w n : Nat} (h : n ≤ Config.lenLimit w) : (BitVec.ofNat w n).toNat = n := by
  have hlimit := lenLimit_mul w
  rw [BitVec.toNat_ofNat, Nat.mod_eq_of_lt (by omega)]

/-- ACCEPT of a valid length, empty or not: position 0 of the call, in the phase the end-of-source test gives. -/
theorem execAccept_valid {cmdLen : Nat} {s : State}
    (hle : (BitVec.ofNat s.lenW cmdLen).toNat ≤ Config.lenLimit s.lenW)
    (h4 : (BitVec.ofNat s.lenW cmdLen).toNat % 4 = 0) :
    execAccept cmdLen s = .next { s with
      len := BitVec.ofNat s.lenW cmdLen, pos := 0#s.lenW, acc := 0#32, slot := 4, err := .ok, errparam := .zero,
      olen := resultLength (BitVec.ofNat s.lenW cmdLen)
      phase := if 0#s.lenW = BitVec.ofNat s.lenW cmdLen then .report else .assemble
      events := s.events ++ [.cmd (BitVec.ofNat s.lenW cmdLen).toNat] } := by
  by_cases h0 : (BitVec.ofNat s.lenW cmdLen).toNat = 0
  · have hzero : BitVec.ofNat s.lenW cmdLen = 0#s.lenW := BitVec.eq_of_toNat_eq (h0.trans BitVec.toNat_zero.symm)
    rw [execAccept_empty h0, hzero]
    simp [resultLength]
  · have hne : 0#s.lenW ≠ BitVec.ofNat s.lenW cmdLen := fun h => h0 (h ▸ BitVec.toNat_zero)
    rw [execAccept_start hle h4 h0, if_neg hne]

/-- The registers of a valid call hold the word of its result length (R95, R163). -/
theorem statusOf_resultLength {w : Nat} {l : BitVec w} (hle : l.toNat ≤ Config.lenLimit w) (h4 : l.toNat % 4 = 0) :
    statusOf .ok .zero (resultLength l) = some (Status.ofLength (l.toNat + l.toNat / 4)) := by
  have hresult : isResultLength w (resultLength l).toNat = true :=
    (isResultLength_iff _ _).2 ⟨_, hle, h4, resultLength_toNat l hle⟩
  rw [← resultLength_toNat l hle]
  simp only [statusOf, hresult, if_true]

/-- The run of a whole call, whichever lines drive it. -/
theorem run_call {s : State} {source : List Byte} {lines rest : List Pins} (h : CallLines source lines)
    (hp : s.phase = .idle) (h4 : source.length % 4 = 0) (hle : source.length ≤ Config.lenLimit s.lenW)
    (ht : s.trace = lines ++ rest) : runSteps lines.length s = .next (s.afterCall source rest) := by
  obtain @⟨command, last, lines, hrst, hvalid, hlen, hlines, hlastRst, hready⟩ := h
  have hlength := ofNat_toNat_of_le_lenLimit hle
  have haccept : step s = _ := (step_command (ps := lines ++ last :: rest) (by simpa using ht) hp hrst hvalid).trans
    (execAccept_valid (by rw [hlen, hlength]; exact hle) (by rw [hlen, hlength]; exact h4))
  rw [hlen, hlength] at haccept
  rw [List.length_cons, List.length_append]
  refine (run_succ haccept).trans ((run_add (run_source (rest := last :: rest) hlines ?_ ?_ ?_ ?_ ?_ ?_)).trans
    ((run_handOver (waits := []) (rest := rest) (word := Status.ofLength (source.length + source.length / 4)) ?_ ?_ ?_
      hlastRst hready ?_).trans ?_))
  · rfl
  · rfl
  · simp [hlength]
  · rfl
  · rfl
  · rfl
  · rfl
  · have hword := statusOf_resultLength (l := BitVec.ofNat s.lenW source.length) (by omega) (by omega)
    rw [hlength] at hword
    exact hword
  · simp
  · rfl
  · simp [State.afterCall]

/-! ### ENCODE and GREEDY -/

/-- The lines of a group in ENCODE and in GREEDY alike: four that offer its bytes, five free ones and five that take. -/
theorem groupLines_replicate {p0 p1 p2 p3 free taking : Pins} {b0 b1 b2 b3 : Byte} (h0 : LineOffers p0 b0)
    (h1 : LineOffers p1 b1) (h2 : LineOffers p2 b2) (h3 : LineOffers p3 b3) (hfree : free.rst = false)
    (htaking : LineTakes taking) :
    GroupLines b0 b1 b2 b3 ([p0, p1, p2, p3] ++ (List.replicate 5 free ++ List.replicate 5 taking)) :=
  .intro (taking := List.replicate 4 taking) h0 h1 h2 h3 List.length_replicate
    (fun _ hp => List.eq_of_mem_replicate hp ▸ hfree) List.length_replicate
    (fun _ hp => List.eq_of_mem_replicate hp ▸ htaking) htaking

theorem lineOffers_lineByte (b : Byte) : LineOffers (lineByte b) b := ⟨rfl, rfl, rfl⟩

theorem lineOffers_lineGreedy (b : Byte) : LineOffers (lineGreedy (some b)) b := ⟨rfl, rfl, rfl⟩

/-- Every greedy line takes, whatever byte it offers. -/
theorem lineTakes_lineGreedy (next : Option Byte) : LineTakes (lineGreedy next) := by
  cases next <;> exact ⟨rfl, rfl⟩

theorem sourceLines_traceGroups : ∀ source : List Byte, source.length % 4 = 0 →
    SourceLines source (traceGroups source)
  | [], _ => .nil
  | [_], h4 | [_, _], h4 | [_, _, _], h4 => by simp at h4
  | b0 :: b1 :: b2 :: b3 :: source, h4 => by
    have hmore := sourceLines_traceGroups source (by simp only [List.length_cons] at h4; omega)
    exact .group (groupLines_replicate (lineOffers_lineByte b0) (lineOffers_lineByte b1) (lineOffers_lineByte b2)
      (lineOffers_lineByte b3) rfl ⟨rfl, rfl⟩) hmore

theorem sourceLines_greedyGroups : ∀ source : List Byte, source.length % 4 = 0 →
    SourceLines source (greedyGroups source)
  | [], _ => .nil
  | [_], h4 | [_, _], h4 | [_, _, _], h4 => by simp at h4
  | b0 :: b1 :: b2 :: b3 :: source, h4 => by
    have hmore := sourceLines_greedyGroups source (by simp only [List.length_cons] at h4; omega)
    have hnext := lineTakes_lineGreedy source.head?
    exact .group (groupLines_replicate (lineOffers_lineGreedy b0) (lineOffers_lineGreedy b1) (lineOffers_lineGreedy b2)
      (lineOffers_lineGreedy b3) hnext.rst hnext) hmore

theorem callLines_traceEncode {source : List Byte} (h4 : source.length % 4 = 0) :
    CallLines source (traceEncode source) :=
  .intro rfl rfl rfl (sourceLines_traceGroups source h4) rfl rfl

theorem callLines_traceGreedy {source : List Byte} (h4 : source.length % 4 = 0) :
    CallLines source (traceGreedy source) := by
  have hlines := sourceLines_greedyGroups source h4
  cases hnext : source.head? <;> rw [traceGreedy, hnext] <;> exact .intro rfl rfl rfl hlines rfl rfl

/-- Settles O41: ENCODE's lines have the shape of a call, and the state after it is read register by register. -/
theorem encodeTraceRunsOneWholeCall : Obligations.EncodeTraceRunsOneWholeCall := by
  unfold Obligations.EncodeTraceRunsOneWholeCall
  intro s source rest hp h4 hle ht
  have hlines := callLines_traceEncode h4
  have hlength := ofNat_toNat_of_le_lenLimit hle
  have holen : (resultLength (BitVec.ofNat s.lenW source.length)).toNat = source.length + source.length / 4 := by
    rw [resultLength_toNat _ (hlength.trans_le hle), hlength]
  have hword : Status.ofLength (source.length + source.length / 4) =
      if source = [] then .empty else .success (source.length + source.length / 4) := by
    have hzero : source.length + source.length / 4 = 0 ↔ source = [] := by
      rw [← List.length_eq_zero_iff]
      omega
    simp only [Status.ofLength, hzero]
  refine ⟨hlines.length, s.afterCall source rest, hlines.length ▸ run_call hlines hp h4 hle ht, ?_, rfl, hlength,
    hlength, rfl, rfl, rfl, rfl, ?_, rfl, ?_, lastGroupBuf_toList s.obuf source h4⟩
  · rw [← hword]
    rfl
  · exact holen
  · rintro rfl
    rfl

/-- Settles O42: both have the shape of a call, and the end state is the same for all lines of that shape. -/
theorem greedyTraceRunsTheSameCall : Obligations.GreedyTraceRunsTheSameCall := by
  unfold Obligations.GreedyTraceRunsTheSameCall
  intro s source rest hp h4 hle
  have hgreedy := callLines_traceGreedy h4
  have hencode := callLines_traceEncode h4
  refine ⟨hgreedy.length.trans hencode.length.symm, ?_⟩
  exact (run_call (s := { s with trace := traceGreedy source ++ rest }) hgreedy hp h4 hle rfl).trans
    (run_call (s := { s with trace := traceEncode source ++ rest }) hencode hp h4 hle rfl).symm

end Sys2Proof.Machine
end

/-! The transform's arithmetic: digits, injectivity, the alphabet and the lengths (40_transform.md R136, R137, R143,
R150, 30_encoding.md R96, R98). -/
section
namespace Sys2Proof.Machine

/-! ### Digits -/

/-- Settles O49: the closed form, and its bound on 32-bit values. -/
theorem runningValueIsExhausted : Obligations.RunningValueIsExhausted := by
  unfold Obligations.RunningValueIsExhausted
  refine ⟨runningValue_eq, fun v hv => ?_⟩
  simp only [runningValue_eq]
  omega

/-- The dollar and the number sign belong to the digits 83 and 84 (R97). -/
theorem alpha_of_le_82 : ∀ d : Fin 85, d.val ≤ 82 → alpha d ≠ 0x24#8 ∧ alpha d ≠ 0x23#8 := by decide

/-- The five digits are those of the value in base 85. -/
theorem digitAt_sum {v : Nat} (hv : v < 2 ^ 32) :
    v = (digitAt v 0).val * 85 ^ 4 + (digitAt v 1).val * 85 ^ 3 + (digitAt v 2).val * 85 ^ 2 +
      (digitAt v 3).val * 85 + (digitAt v 4).val ∧ (digitAt v 0).val ≤ 82 := by
  simp only [digitAt, Fin.val_zero, Fin.val_one, Fin.val_two, show (3 : Fin 5).val = 3 from rfl,
    show (4 : Fin 5).val = 4 from rfl]
  omega

/-- Settles O50: the digits of the value, and base 85 with digits below 85. -/
theorem digitsWriteTheValueUniquely : Obligations.DigitsWriteTheValueUniquely := by
  unfold Obligations.DigitsWriteTheValueUniquely
  refine ⟨fun v hv => ?_, fun d e hsum => ?_⟩
  · obtain ⟨hvalue, hfirst⟩ := digitAt_sum hv
    exact ⟨hvalue, hfirst, alpha_of_le_82 _ hfirst⟩
  · have hdigits : (d 0).val = (e 0).val ∧ (d 1).val = (e 1).val ∧ (d 2).val = (e 2).val ∧ (d 3).val = (e 3).val ∧
        (d 4).val = (e 4).val := by omega
    obtain ⟨h0, h1, h2, h3, h4⟩ := hdigits
    funext k
    match k with
    | 0 => exact Fin.ext h0
    | 1 => exact Fin.ext h1
    | 2 => exact Fin.ext h2
    | 3 => exact Fin.ext h3
    | 4 => exact Fin.ext h4

/-! ### `encode` is injective -/

theorem alpha_injective : ∀ d e : Fin 85, alpha d = alpha e → d = e := by
  intro d e h
  exact Fin.ext ((List.Nodup.getElem_inj_iff romTable_nodup).1 h)

/-- The characters of a group determine its bytes. -/
theorem encGroup_inj {a0 a1 a2 a3 b0 b1 b2 b3 : Byte} (h : encGroup a0 a1 a2 a3 = encGroup b0 b1 b2 b3) :
    a0 = b0 ∧ a1 = b1 ∧ a2 = b2 ∧ a3 = b3 := by
  have hdigit (k : Fin 5) : digitAt (groupVal a0 a1 a2 a3) k = digitAt (groupVal b0 b1 b2 b3) k := by
    have hchar := congrArg (fun chars => chars[k.val]?) h
    simp only [encGroup_getElem?, Option.some.injEq] at hchar
    exact alpha_injective _ _ hchar
  obtain ⟨ha, -⟩ := digitAt_sum (groupVal_lt a0 a1 a2 a3)
  obtain ⟨hb, -⟩ := digitAt_sum (groupVal_lt b0 b1 b2 b3)
  apply groupVal_inj
  rw [ha, hb]
  simp only [hdigit]

theorem encGroups_inj : ∀ {a b : List Byte}, a.length % 4 = 0 → b.length % 4 = 0 → encGroups a = encGroups b → a = b
  | [_], _, ha, _, _ | [_, _], _, ha, _, _ | [_, _, _], _, ha, _, _ => by simp at ha
  | _, [_], _, hb, _ | _, [_, _], _, hb, _ | _, [_, _, _], _, hb, _ => by simp at hb
  | [], [], _, _, _ => rfl
  | [], b0 :: b1 :: b2 :: b3 :: b, _, _, h | b0 :: b1 :: b2 :: b3 :: b, [], _, _, h => by
    have hlength := congrArg List.length h
    simp only [encGroups, List.length_append, encGroup_length, List.length_nil] at hlength
    omega
  | a0 :: a1 :: a2 :: a3 :: a, b0 :: b1 :: b2 :: b3 :: b, ha, hb, h => by
    obtain ⟨hgroup, hrest⟩ := List.append_inj h (by simp)
    obtain ⟨rfl, rfl, rfl, rfl⟩ := encGroup_inj hgroup
    rw [encGroups_inj (by simp only [List.length_cons] at ha; omega) (by simp only [List.length_cons] at hb; omega)
      hrest]

/-- Settles O55: a string is that of the groups of a valid source, and they determine its bytes. -/
theorem encodeIsInjective : Obligations.EncodeIsInjective := by
  unfold Obligations.EncodeIsInjective
  intro w a b chars ha hb
  obtain ⟨-, ha4, hachars⟩ := encodeBytes_eq_ok_iff.1 ha
  obtain ⟨-, hb4, hbchars⟩ := encodeBytes_eq_ok_iff.1 hb
  exact encGroups_inj ha4 hb4 (hachars.trans hbchars.symm)

/-! ### The alphabet -/

/-- R98, digit by digit: the three ranges, and every code printable. -/
theorem alpha_ranges : ∀ d : Fin 85,
    (d.val ≤ 9 → (alpha d).toNat = 0x30 + d.val) ∧
    (10 ≤ d.val → d.val ≤ 35 → (alpha d).toNat = 0x61 + (d.val - 10)) ∧
    (36 ≤ d.val → d.val ≤ 61 → (alpha d).toNat = 0x41 + (d.val - 36)) ∧
    0x21 ≤ (alpha d).toNat ∧ (alpha d).toNat ≤ 0x7D ∧ (alpha d).getLsbD 7 = false := by decide

/-- Settles O56: the table read entry by entry, no entry standing twice. -/
theorem alphabetTableStructure : Obligations.AlphabetTableStructure := by
  unfold Obligations.AlphabetTableStructure
  refine ⟨alpha_ranges, rfl, alpha_injective, fun n hlow hhigh => ?_⟩
  interval_cases n <;> decide

/-! ### Length arithmetic -/

/-- `x[w-1:2]` is the quotient by 4 at every width, 0 and 1 included (R150). -/
theorem extractLsb'_two_toNat {w : Nat} (l : BitVec w) : (l.extractLsb' 2 (w - 2)).toNat = l.toNat / 4 := by
  have hl := l.isLt
  rw [BitVec.extractLsb'_toNat, Nat.shiftRight_eq_div_pow]
  refine Nat.mod_eq_of_lt ?_
  obtain rfl | rfl | ⟨n, rfl⟩ : w = 0 ∨ w = 1 ∨ ∃ n, w = n + 2 := by
    rcases w with _ | _ | n
    · exact .inl rfl
    · exact .inr (.inl rfl)
    · exact .inr (.inr ⟨n, rfl⟩)
  · omega
  · omega
  · rw [Nat.add_sub_cancel]
    rw [Nat.pow_add] at hl
    omega

/-- Settles O57: remainder and quotient by 4, and the room a length within the limit leaves. -/
theorem lengthArithmetic : Obligations.LengthArithmetic := by
  unfold Obligations.LengthArithmetic
  refine ⟨fun n => by omega,
    fun w l => ⟨?_, extractLsb'_two_toNat l, fun hle => ⟨?_, resultLength_toNat l hle⟩⟩, by decide⟩
  · rw [BitVec.extractLsb'_toNat, Nat.shiftRight_zero]
  · have hlimit := lenLimit_mul w
    omega

end Sys2Proof.Machine
end
